-- ==== Sys2Proof/Word.lean ====
section
/-! DEFINITION. The widths of the machine (spec/00_scope.md R10): u4, u8, u12 and u16. -/

namespace Sys2Proof

/-- A u8: a general register, a timer, a memory byte (R10). -/
abbrev Byte := BitVec 8

/-- A u16: I, PC, a saved return address, an instruction word (R10). -/
abbrev Word := BitVec 16

/-- A u4: a register number X or Y, a row count N, a logical key (R10, R81). -/
abbrev Nibble := BitVec 4

/-- A u12: the immediate NNN, an absolute memory address (R10, R81). -/
abbrev Addr := BitVec 12

end Sys2Proof
end

