-- ==== Sys2Proof/Syntax.lean ====
section
/-! DEFINITION. The 34 instructions (spec/30_encoding.md R92), one constructor per row of spec/opcode_table.json.
Operands are the fields of R81 at their own widths, so every value a field can take is a value of the constructor
and no other is (R82). -/

namespace Sys2Proof

/-- An instruction. Each constructor names the pattern of the dispatch table it stands for. -/
inductive Instr where
  /-- 00E0, CLS (R200). -/
  | cls
  /-- 00EE, RET (R120). -/
  | ret
  /-- 1NNN, JP NNN (R121). -/
  | jp (nnn : Addr)
  /-- 2NNN, CALL NNN (R122). -/
  | call (nnn : Addr)
  /-- 3XNN, SE Vx, NN (R123). -/
  | seImm (x : Nibble) (nn : Byte)
  /-- 4XNN, SNE Vx, NN (R124). -/
  | sneImm (x : Nibble) (nn : Byte)
  /-- 5XY0, SE Vx, Vy (R125). -/
  | seReg (x y : Nibble)
  /-- 6XNN, LD Vx, NN (R151). -/
  | ldImm (x : Nibble) (nn : Byte)
  /-- 7XNN, ADD Vx, NN (R152). -/
  | addImm (x : Nibble) (nn : Byte)
  /-- 8XY0, LD Vx, Vy (R153). -/
  | ldReg (x y : Nibble)
  /-- 8XY1, OR Vx, Vy (R154). -/
  | or (x y : Nibble)
  /-- 8XY2, AND Vx, Vy (R155). -/
  | and (x y : Nibble)
  /-- 8XY3, XOR Vx, Vy (R156). -/
  | xor (x y : Nibble)
  /-- 8XY4, ADD Vx, Vy (R157). -/
  | addReg (x y : Nibble)
  /-- 8XY5, SUB Vx, Vy (R158). -/
  | sub (x y : Nibble)
  /-- 8XY6, SHR Vx, Vy (R159). -/
  | shr (x y : Nibble)
  /-- 8XY7, SUBN Vx, Vy (R160). -/
  | subn (x y : Nibble)
  /-- 8XYE, SHL Vx, Vy (R161). -/
  | shl (x y : Nibble)
  /-- 9XY0, SNE Vx, Vy (R126). -/
  | sneReg (x y : Nibble)
  /-- ANNN, LD I, NNN (R180). -/
  | ldI (nnn : Addr)
  /-- BNNN, JP V0, NNN (R127). -/
  | jpV0 (nnn : Addr)
  /-- CXNN, RND Vx, NN (R162). -/
  | rnd (x : Nibble) (nn : Byte)
  /-- DXYN, DRW Vx, Vy, N (R201). -/
  | drw (x y n : Nibble)
  /-- EX9E, SKP Vx (R220). -/
  | skp (x : Nibble)
  /-- EXA1, SKNP Vx (R221). -/
  | sknp (x : Nibble)
  /-- FX07, LD Vx, DT (R222). -/
  | ldVxDt (x : Nibble)
  /-- FX0A, LD Vx, K (R223). -/
  | ldVxK (x : Nibble)
  /-- FX15, LD DT, Vx (R224). -/
  | ldDtVx (x : Nibble)
  /-- FX18, LD ST, Vx (R225). -/
  | ldStVx (x : Nibble)
  /-- FX1E, ADD I, Vx (R181). -/
  | addIVx (x : Nibble)
  /-- FX29, LD F, Vx (R182). -/
  | ldFVx (x : Nibble)
  /-- FX33, LD B, Vx (R183). -/
  | ldBVx (x : Nibble)
  /-- FX55, LD [I], Vx (R184). -/
  | ldMemVx (x : Nibble)
  /-- FX65, LD Vx, [I] (R185). -/
  | ldVxMem (x : Nibble)
  deriving DecidableEq, Repr

end Sys2Proof
end

