-- ==== Sys2Proof/WellFormed.lean ====
section
/-! DEFINITION. Which instruction words are well formed (spec/30_encoding.md R84-R86). Every TERM of `Instr` is
well formed, because each operand has its field's own width and R82 makes every value of a field legal; what can be
ill formed is a WORD. It is judged here twice, neither time by the decoder: by the rows of spec/opcode_table.json,
and by the six classes of illegal words R85 lists. -/

namespace Sys2Proof

/-- Why a word is illegal: the classes (a)-(f) of R85. -/
inductive Illegal where
  /-- (a) a 0x0NNN word other than 0x00E0 and 0x00EE. -/
  | family0
  /-- (b) a 0x5XYN word with N ≠ 0. -/
  | family5
  /-- (c) a 0x8XYN word with N in 8, 9, A, B, C, D, F. -/
  | family8
  /-- (d) a 0x9XYN word with N ≠ 0. -/
  | family9
  /-- (e) a 0xEXNN word with NN not 9E or A1. -/
  | familyE
  /-- (f) a 0xFXNN word whose NN is none of the nine selectors. -/
  | familyF
  deriving DecidableEq, Repr

/-- One row of spec/opcode_table.json: the fixed bits of a pattern and which bits they are. -/
structure OpcodeRow where
  /-- The value of the fixed bits ("match"). -/
  pattern : Word
  /-- Which bits are fixed ("mask"). -/
  mask : Word
  deriving DecidableEq, Repr

/-- The 34 rows of spec/opcode_table.json, in its order. -/
def opcodeRows : List OpcodeRow :=
  [⟨0x00E0, 0xFFFF⟩, ⟨0x00EE, 0xFFFF⟩, ⟨0x1000, 0xF000⟩, ⟨0x2000, 0xF000⟩, ⟨0x3000, 0xF000⟩] ++
  [⟨0x4000, 0xF000⟩, ⟨0x5000, 0xF00F⟩, ⟨0x6000, 0xF000⟩, ⟨0x7000, 0xF000⟩, ⟨0x8000, 0xF00F⟩] ++
  [⟨0x8001, 0xF00F⟩, ⟨0x8002, 0xF00F⟩, ⟨0x8003, 0xF00F⟩, ⟨0x8004, 0xF00F⟩, ⟨0x8005, 0xF00F⟩] ++
  [⟨0x8006, 0xF00F⟩, ⟨0x8007, 0xF00F⟩, ⟨0x800E, 0xF00F⟩, ⟨0x9000, 0xF00F⟩, ⟨0xA000, 0xF000⟩] ++
  [⟨0xB000, 0xF000⟩, ⟨0xC000, 0xF000⟩, ⟨0xD000, 0xF000⟩, ⟨0xE09E, 0xF0FF⟩, ⟨0xE0A1, 0xF0FF⟩] ++
  [⟨0xF007, 0xF0FF⟩, ⟨0xF00A, 0xF0FF⟩, ⟨0xF015, 0xF0FF⟩, ⟨0xF018, 0xF0FF⟩, ⟨0xF01E, 0xF0FF⟩] ++
  [⟨0xF029, 0xF0FF⟩, ⟨0xF033, 0xF0FF⟩, ⟨0xF055, 0xF0FF⟩, ⟨0xF065, 0xF0FF⟩]

/-- A word matches a row when its fixed bits are the row's. -/
def OpcodeRow.covers (r : OpcodeRow) (w : Word) : Bool :=
  w &&& r.mask == r.pattern

/-- A word is legal when some row of the opcode table covers it (R85, R86). -/
def wordLegal (w : Word) : Bool :=
  opcodeRows.any fun r => r.covers w

/-- The class of R85 a word falls into, or none when it is legal. -/
def illegalClass (w : Word) : Option Illegal :=
  let n := w.extractLsb' 0 4
  let nn := w.extractLsb' 0 8
  match w.extractLsb' 12 4 with
  | 0x0#4 => if w = 0x00E0#16 ∨ w = 0x00EE#16 then none else some .family0
  | 0x5#4 => if n ≠ 0 then some .family5 else none
  | 0x8#4 => if n ∈ [0x8#4, 0x9#4, 0xA#4, 0xB#4, 0xC#4, 0xD#4, 0xF#4] then some .family8 else none
  | 0x9#4 => if n ≠ 0 then some .family9 else none
  | 0xE#4 => if nn ∉ [0x9E#8, 0xA1#8] then some .familyE else none
  | 0xF#4 =>
    if nn ∉ [0x07#8, 0x0A#8, 0x15#8, 0x18#8, 0x1E#8, 0x29#8, 0x33#8, 0x55#8, 0x65#8] then some .familyF else none
  | _ => none

end Sys2Proof
end

