-- ==== Sys2Proof/Decode.lean ====
section
/-! DEFINITION. Decoding and encoding (spec/30_encoding.md R81-R86): the fields of a word, the decode function of
R84, and an encoder written from the formats of R83. -/

namespace Sys2Proof

/-- o = w[15:12], the opcode family (R81). -/
def fieldO (w : Word) : Nibble := w.extractLsb' 12 4

/-- X = w[11:8] (R81). -/
def fieldX (w : Word) : Nibble := w.extractLsb' 8 4

/-- Y = w[7:4] (R81). -/
def fieldY (w : Word) : Nibble := w.extractLsb' 4 4

/-- N = w[3:0] (R81). -/
def fieldN (w : Word) : Nibble := w.extractLsb' 0 4

/-- NN = w[7:0] (R81). -/
def fieldNN (w : Word) : Byte := w.extractLsb' 0 8

/-- NNN = w[11:0] (R81). -/
def fieldNNN (w : Word) : Addr := w.extractLsb' 0 12

/-- Family 0x8: the selector N picks the operation (R84). -/
def decodeFamily8 (x y n : Nibble) : Except Illegal Instr :=
  match n with
  | 0x0#4 => .ok (.ldReg x y)
  | 0x1#4 => .ok (.or x y)
  | 0x2#4 => .ok (.and x y)
  | 0x3#4 => .ok (.xor x y)
  | 0x4#4 => .ok (.addReg x y)
  | 0x5#4 => .ok (.sub x y)
  | 0x6#4 => .ok (.shr x y)
  | 0x7#4 => .ok (.subn x y)
  | 0xE#4 => .ok (.shl x y)
  | _ => .error .family8

/-- Family 0xF: the selector NN picks the operation (R84). -/
def decodeFamilyF (x : Nibble) (nn : Byte) : Except Illegal Instr :=
  match nn with
  | 0x07#8 => .ok (.ldVxDt x)
  | 0x0A#8 => .ok (.ldVxK x)
  | 0x15#8 => .ok (.ldDtVx x)
  | 0x18#8 => .ok (.ldStVx x)
  | 0x1E#8 => .ok (.addIVx x)
  | 0x29#8 => .ok (.ldFVx x)
  | 0x33#8 => .ok (.ldBVx x)
  | 0x55#8 => .ok (.ldMemVx x)
  | 0x65#8 => .ok (.ldVxMem x)
  | _ => .error .familyF

/-- `Decode(w)` of R84: the family first, the sub-fields second. -/
def decodeWord (w : Word) : Except Illegal Instr :=
  match fieldO w with
  | 0x0#4 => if w = 0x00E0#16 then .ok .cls else if w = 0x00EE#16 then .ok .ret else .error .family0
  | 0x1#4 => .ok (.jp (fieldNNN w))
  | 0x2#4 => .ok (.call (fieldNNN w))
  | 0x3#4 => .ok (.seImm (fieldX w) (fieldNN w))
  | 0x4#4 => .ok (.sneImm (fieldX w) (fieldNN w))
  | 0x5#4 => if fieldN w = 0 then .ok (.seReg (fieldX w) (fieldY w)) else .error .family5
  | 0x6#4 => .ok (.ldImm (fieldX w) (fieldNN w))
  | 0x7#4 => .ok (.addImm (fieldX w) (fieldNN w))
  | 0x8#4 => decodeFamily8 (fieldX w) (fieldY w) (fieldN w)
  | 0x9#4 => if fieldN w = 0 then .ok (.sneReg (fieldX w) (fieldY w)) else .error .family9
  | 0xA#4 => .ok (.ldI (fieldNNN w))
  | 0xB#4 => .ok (.jpV0 (fieldNNN w))
  | 0xC#4 => .ok (.rnd (fieldX w) (fieldNN w))
  | 0xD#4 => .ok (.drw (fieldX w) (fieldY w) (fieldN w))
  | 0xE#4 =>
    if fieldNN w = 0x9E#8 then .ok (.skp (fieldX w))
    else if fieldNN w = 0xA1#8 then .ok (.sknp (fieldX w))
    else .error .familyE
  | _ => decodeFamilyF (fieldX w) (fieldNN w)

/-- Why a byte sequence does not begin with an instruction. -/
inductive Reject where
  /-- Fewer than the two bytes of an instruction (R80). -/
  | truncated
  /-- The word is illegal (R85). -/
  | illegal (c : Illegal)
  deriving DecidableEq, Repr

/-- The word two bytes make: the byte at the lower address is bits 15:8 (R54, R55). -/
def wordOfBytes (hi lo : Byte) : Word :=
  (hi.setWidth 16 <<< 8) ||| lo.setWidth 16

/-- The byte of a word at the lower address (R55). -/
def highByte (w : Word) : Byte := w.extractLsb' 8 8

/-- The byte of a word at the higher address (R55). -/
def lowByte (w : Word) : Byte := w.extractLsb' 0 8

/-- Decoding of any bytes: the first instruction and the bytes after it, or why there is none. -/
def decode : List Byte → Except Reject (Instr × List Byte)
  | hi :: lo :: rest =>
    match decodeWord (wordOfBytes hi lo) with
    | .ok i => .ok (i, rest)
    | .error c => .error (.illegal c)
  | _ => .error .truncated

/-- Format A: family and NNN (R83). -/
def formatA (o : Nibble) (nnn : Addr) : Word :=
  (o.setWidth 16 <<< 12) ||| nnn.setWidth 16

/-- Format I: family, X and NN; also format K with NN the selector (R83). -/
def formatI (o x : Nibble) (nn : Byte) : Word :=
  (o.setWidth 16 <<< 12) ||| (x.setWidth 16 <<< 8) ||| nn.setWidth 16

/-- Format R: family, X, Y and the selector; also format D with N in its place (R83). -/
def formatR (o x y s : Nibble) : Word :=
  (o.setWidth 16 <<< 12) ||| (x.setWidth 16 <<< 8) ||| (y.setWidth 16 <<< 4) ||| s.setWidth 16

/-- The word of an instruction, from the formats of R83 and the table of R92. -/
def encode : Instr → Word
  | .cls => 0x00E0#16
  | .ret => 0x00EE#16
  | .jp nnn => formatA 0x1#4 nnn
  | .call nnn => formatA 0x2#4 nnn
  | .seImm x nn => formatI 0x3#4 x nn
  | .sneImm x nn => formatI 0x4#4 x nn
  | .seReg x y => formatR 0x5#4 x y 0x0#4
  | .ldImm x nn => formatI 0x6#4 x nn
  | .addImm x nn => formatI 0x7#4 x nn
  | .ldReg x y => formatR 0x8#4 x y 0x0#4
  | .or x y => formatR 0x8#4 x y 0x1#4
  | .and x y => formatR 0x8#4 x y 0x2#4
  | .xor x y => formatR 0x8#4 x y 0x3#4
  | .addReg x y => formatR 0x8#4 x y 0x4#4
  | .sub x y => formatR 0x8#4 x y 0x5#4
  | .shr x y => formatR 0x8#4 x y 0x6#4
  | .subn x y => formatR 0x8#4 x y 0x7#4
  | .shl x y => formatR 0x8#4 x y 0xE#4
  | .sneReg x y => formatR 0x9#4 x y 0x0#4
  | .ldI nnn => formatA 0xA#4 nnn
  | .jpV0 nnn => formatA 0xB#4 nnn
  | .rnd x nn => formatI 0xC#4 x nn
  | .drw x y n => formatR 0xD#4 x y n
  | .skp x => formatI 0xE#4 x 0x9E#8
  | .sknp x => formatI 0xE#4 x 0xA1#8
  | .ldVxDt x => formatI 0xF#4 x 0x07#8
  | .ldVxK x => formatI 0xF#4 x 0x0A#8
  | .ldDtVx x => formatI 0xF#4 x 0x15#8
  | .ldStVx x => formatI 0xF#4 x 0x18#8
  | .addIVx x => formatI 0xF#4 x 0x1E#8
  | .ldFVx x => formatI 0xF#4 x 0x29#8
  | .ldBVx x => formatI 0xF#4 x 0x33#8
  | .ldMemVx x => formatI 0xF#4 x 0x55#8
  | .ldVxMem x => formatI 0xF#4 x 0x65#8

/-- The bytes of an instruction as they lie in memory, high byte first (R55). -/
def encodeBytes (i : Instr) : List Byte :=
  [highByte (encode i), lowByte (encode i)]

/-- The instruction word of bits numbered as spec/opcode_table.json numbers them: bit 0 is the least significant bit
of the one 16-bit word, and every bit at or above `nbits` is 0. -/
def tableWord (nbits w : Nat) : Word :=
  BitVec.ofNat 16 (w % 2 ^ nbits)

/-- The instruction the decoder reads from a table word laid out in memory, high byte first. -/
def decodeTableWord (nbits w : Nat) : Option Instr :=
  match decode [highByte (tableWord nbits w), lowByte (tableWord nbits w)] with
  | .ok (i, _) => some i
  | .error _ => none

end Sys2Proof
end

