-- ==== Sys2Proof/Config.lean ====
section
/-! DEFINITION. The fixed parameters of the machine (spec/00_scope.md R7), the named parameters a model takes
as arguments (R8), and the free values: constants without a body, for what the spec makes a host input or a draw. -/

namespace Sys2Proof

/-! The fixed numbers of R7 stand in the definitions as the spec's own pseudocode writes them: MEM_SIZE 4096 (addresses
0x000-0xFFF), FONT_SIZE 80 (0x000-0x04F), PROGRAM_BASE and PC_RESET 0x200, PROGRAM_MAX 3584, a display of 64 by 32. -/

/-- TICK: 1/60 s (R7), in exact rational seconds. -/
abbrev tick : Rat := 1 / 60

/-- TIME (R8; D27), the one parameter that is a type: a totally ordered additive domain of wall-clock instants with
TICK in it. `due d` is how many ticks the loop of R250 takes when d has elapsed, the k of R251; `due_le` says that it
is the least number of ticks after which no more than TICK is left. A domain in which some elapsed time outlasts every
number of ticks has no such function, and there R250's loop does not end (assumption 3). -/
structure TimeDomain (T : Type) [AddCommGroup T] [LinearOrder T] [IsOrderedAddMonoid T] where
  /-- TICK, as an element of the domain. -/
  tick : T
  /-- A tick is a duration that passes. -/
  tick_pos : 0 < tick
  /-- The ticks due after an elapsed time. -/
  due : T → Nat
  /-- No more than TICK is left after k ticks exactly when the ticks due are at most k. -/
  due_le : ∀ (d : T) (k : Nat), due d ≤ k ↔ d - k • tick ≤ tick

/-- R8's default of TIME: exact rationals in seconds (D27), with k = max(0, ceil(d / TICK) - 1) (R251). -/
def TimeDomain.standard : TimeDomain Rat where
  tick := Sys2Proof.tick
  tick_pos := by norm_num
  due := fun d => (⌈d / Sys2Proof.tick⌉ - 1).toNat
  due_le := fun d k => by
    rw [Int.toNat_le, sub_le_iff_le_add, Int.ceil_le, div_le_iff₀ (by norm_num), nsmul_eq_mul]
    push_cast
    constructor <;> intro h <;> linarith

/-- FONT_PROTECT (R8, R60; D4): what a program store below 0x050 does. -/
inductive FontProtect where
  | fault
  | write
  deriving DecidableEq, Repr, Inhabited

/-- FX1E_VF_NOWRAP (R8, R181; D10, OPEN): VF after an FX1E that does not wrap. -/
inductive Fx1eVfNowrap where
  | unchanged
  | zero
  deriving DecidableEq, Repr, Inhabited

/-- LDST_I_MODE (R8, R184, R185; D11): whether FX55 and FX65 advance I. -/
inductive LdstIMode where
  | unchanged
  | advance
  deriving DecidableEq, Repr, Inhabited

/-- REDRAW_MODE (R8, R259; D18): when a step reports a display change. -/
inductive RedrawMode where
  | byOpcode
  | byChange
  deriving DecidableEq, Repr, Inhabited

/-- KEY_CHOICE (R8, R223; D16): which of several held keys FX0A takes. `any` is the draw, `lowest` is for executable runs. -/
inductive KeyChoice where
  | any
  | lowest
  deriving DecidableEq, Repr, Inhabited

/-- The model parameters of R8, as one record. A state carries it (assumption 4), so that a statement about every
state holds for every value of every parameter; no step writes it. The parameter TIME is a type and stands beside it:
`TimeDomain`, an argument of the machine of Machine/AnyTime.lean; a State has TIME at its default (assumption 3). -/
structure Config where
  /-- STACK_LIMIT: `none` is unbounded (D15). -/
  stackLimit : Option Nat
  /-- FONT: the 80 bytes at 0x000-0x04F (D5). -/
  font : Vector Byte 80
  /-- FONT_PROTECT (D4). -/
  fontProtect : FontProtect
  /-- FX1E_VF_NOWRAP (D10). -/
  fx1eVfNowrap : Fx1eVfNowrap
  /-- LDST_I_MODE (D11). -/
  ldstIMode : LdstIMode
  /-- REDRAW_MODE (D18). -/
  redrawMode : RedrawMode
  /-- KEY_CHOICE (D16). -/
  keyChoice : KeyChoice
  deriving DecidableEq, Repr

/-- The glyphs 0-7 of the default FONT (R59, from general knowledge; PRESUMED, assumption 6). -/
def Config.glyphs0to7 : List Byte :=
  [0xF0, 0x90, 0x90, 0x90, 0xF0] ++ [0x20, 0x60, 0x20, 0x20, 0x70] ++
  [0xF0, 0x10, 0xF0, 0x80, 0xF0] ++ [0xF0, 0x10, 0xF0, 0x10, 0xF0] ++
  [0x90, 0x90, 0xF0, 0x10, 0x10] ++ [0xF0, 0x80, 0xF0, 0x10, 0xF0] ++
  [0xF0, 0x80, 0xF0, 0x90, 0xF0] ++ [0xF0, 0x10, 0x20, 0x40, 0x40]

/-- The glyphs 8-F of the default FONT (R59, from general knowledge; PRESUMED, assumption 6). -/
def Config.glyphs8toF : List Byte :=
  [0xF0, 0x90, 0xF0, 0x90, 0xF0] ++ [0xF0, 0x90, 0xF0, 0x10, 0xF0] ++
  [0xF0, 0x90, 0xF0, 0x90, 0x90] ++ [0xE0, 0x90, 0xE0, 0x90, 0xE0] ++
  [0xF0, 0x80, 0x80, 0x80, 0xF0] ++ [0xE0, 0x90, 0x90, 0x90, 0xE0] ++
  [0xF0, 0x80, 0xF0, 0x80, 0xF0] ++ [0xF0, 0x80, 0xF0, 0x80, 0x80]

/-- The default FONT, the table of R59 (D5). -/
def Config.defaultFont : Vector Byte 80 :=
  ⟨(Config.glyphs0to7 ++ Config.glyphs8toF).toArray, by decide⟩

/-- FREE VALUE. FX1E_VF_NOWRAP has no default (R8, D10): nothing constrains it (assumption 5). -/
opaque Config.openFx1eVf : Fx1eVfNowrap

/-- The defaults of R8. -/
def Config.standard : Config where
  stackLimit := none
  font := Config.defaultFont
  fontProtect := .fault
  fx1eVfNowrap := Config.openFx1eVf
  ldstIMode := .unchanged
  redrawMode := .byOpcode
  keyChoice := .any

/-- FREE VALUE. The wall time between Step call n and the one before it, or the load; only its absolute value is
used, since the host's clock is monotonic (R258; assumption 1). -/
opaque Config.freeElapsed : Nat → Rat

/-- FREE VALUE. The held keys of Step call n (R254; assumption 1). -/
opaque Config.freeHeld : Nat → Vector Bool 16

/-- FREE VALUE. The random byte of Step call n (R256; assumption 1). -/
opaque Config.freeRnd : Nat → Byte

/-- FREE VALUE. The draw by which FX0A picks one of several held keys in Step call n (R223; assumption 11). -/
opaque Config.freePick : Nat → Nat

end Sys2Proof
end

