-- ==== Sys2Proof/Machine/State.lean ====
section
/-! DEFINITION. The state of the machine (spec/10_state.md R20-R33), the fault record (spec/60_exceptions.md R243),
the refusals, what crosses the host interface (R258), and the state after reset (R31). -/

namespace Sys2Proof.Machine

/-- A fault record (R243): the constructor is the cause of R241, `addr` the address of the faulting instruction,
`word` its word, `dataAddr` the failing data address. Every fault is fatal and stops the machine. -/
inductive Fault where
  /-- Code 1. Raised by `step` when the fetched word is illegal (R85). Exact: the spec states this fault. -/
  | decodeError (addr word : Word)
  /-- Code 2. Raised by `step` when PC + 1 > 0xFFF (R54); there is no word. Exact: the spec states this fault. -/
  | fetchOutOfRange (addr : Word)
  /-- Code 3. Raised by DXYN, FX33, FX55 and FX65 on a data address above 0xFFF (R52, R53; D2). Safe: the machine
  stops where an implementation might wrap. -/
  | memOutOfRange (addr word : Word) (dataAddr : Nat)
  /-- Code 4. Raised by 00EE on an empty stack (R120; D14). Safe: the machine stops where one might go on. -/
  | stackUnderflow (addr word : Word)
  /-- Code 5. Raised by 2NNN on a full stack, only under a finite STACK_LIMIT (R122; D15). Safe. -/
  | stackOverflow (addr word : Word)
  /-- Code 6. Raised by FX33 and FX55 on a store below 0x050 under FONT_PROTECT = fault (R60; D4). Safe: the
  machine stops where an implementation might write. -/
  | fontWrite (addr word : Word) (dataAddr : Nat)
  deriving DecidableEq, Repr

/-- What an instruction's own check found, before the record of R243 is made of it (R246 (3)). -/
inductive Cause where
  /-- A data byte address above 0xFFF. -/
  | memOutOfRange (dataAddr : Nat)
  /-- A protected store into the font. -/
  | fontWrite (dataAddr : Nat)
  /-- A pop of the empty stack. -/
  | stackUnderflow
  /-- A push onto a full stack. -/
  | stackOverflow
  deriving DecidableEq, Repr

/-- Why the model gives a case no meaning. -/
inductive Refusal where
  /-- An arm of `exec` without a meaning. No arm raises it: every instruction of the table has one. Safe. -/
  | notModelled (mnemonic : String)
  /-- Raised by `hostStep` on a Step before any successful load (R281; D28, U16). Safe: no machine exists. -/
  | noMachine
  /-- Raised by `hostStep` when the host's `now` is earlier than the last one (R258; U17). Safe: the host broke its
  obligation and the spec gives such a Step no meaning. -/
  | clockWentBack
  deriving DecidableEq, Repr

/-- The arguments of one Step call (R258). -/
structure StepInput where
  /-- The wall-clock instant of the call, in seconds. -/
  now : Rat
  /-- HeldSet: entry k says whether logical key k is held (R254). -/
  held : Vector Bool 16
  /-- The random byte of this step (R256). -/
  rnd : Byte
  deriving DecidableEq, Repr

/-- What a Step call returns (R258): the redraw flag, the fault record, or a refusal of the model. -/
inductive StepResult where
  | ok (redraw : Bool)
  | fault (r : Fault)
  | refused (r : Refusal)
  deriving DecidableEq, Repr

/-- Why a load is rejected (R281). -/
inductive LoadError where
  /-- Code 16: the program has no byte. -/
  | emptyProgram
  /-- Code 17: the program has more than 3584 bytes. -/
  | programTooLarge
  deriving DecidableEq, Repr

/-- The frame buffer `Disp[x][y]`, x the column 0..63 and y the row 0..31 (R28). -/
abbrev Disp := Vector (Vector Bool 32) 64

/-- Memory as a list of (address, byte) in canonical form: see `Memory.wf` in Ops. -/
abbrev Memory := List Host.Cell

/-- The machine state: the tuple of R20, and the fields of the model itself that hold the step's arguments, its
result and its draws (assumptions 1, 4, 10, 11). -/
structure State where
  /-- V0..VF (R21, R22). -/
  v : Vector Byte 16
  /-- I, the address register (R23). -/
  i : Word
  /-- PC (R24). -/
  pc : Word
  /-- The call stack, its top at the end (R26, R11). -/
  stack : List Word
  /-- DT, the delay timer (R27). -/
  dt : Byte
  /-- ST, the sound timer (R27). -/
  st : Byte
  /-- Mem (R50). -/
  mem : Memory
  /-- Disp (R28). -/
  disp : Disp
  /-- last_tick (R29). -/
  lastTick : Rat
  /-- fault (R30). -/
  fault : Option Fault
  /-- The model's own: the parameters of R8. -/
  cfg : Config
  /-- The model's own: the arguments of the Step call about to be made (R258). -/
  input : StepInput
  /-- The model's own: the draw that picks FX0A's key in this step (R223). -/
  keyPick : Nat
  /-- The model's own: the instant of the last Step call, or of the load (R258). -/
  clock : Rat
  /-- The model's own: the redraw flag the last step returned (R259). -/
  redraw : Bool
  /-- The model's own: how many times a Step call's arguments have been drawn. -/
  draws : Nat
  deriving DecidableEq, Repr

/-- The state after reset (R31): what a load leaves, with nothing but the font and zeros in memory. It is the state
Load([0x00], t0 = 0) leaves. The arguments of the first Step call are free values (assumption 1). -/
def State.reset : State where
  v := Vector.replicate 16 0
  i := 0
  pc := 0x200
  stack := []
  dt := 0
  st := 0
  mem := []
  disp := Vector.replicate 64 (Vector.replicate 32 false)
  lastTick := 0
  fault := none
  cfg := Config.standard
  input := { now := |Config.freeElapsed 0|, held := Config.freeHeld 0, rnd := Config.freeRnd 0 }
  keyPick := Config.freePick 0
  clock := 0
  redraw := false
  draws := 1

end Sys2Proof.Machine
end

