-- ==== Sys2Proof/Machine/Ops.lean ====
section
/-! DEFINITION. The named operations over registers, memory, the stack and the fault: what the instructions share. -/

namespace Sys2Proof.Machine

/-! General registers (R21) -/

/-- `V[x]` (R11). -/
def readV (s : State) (x : Nibble) : Byte :=
  s.v[x.toNat]'(x.isLt)

/-- `V[x] <- b` (R11). -/
def writeV (s : State) (x : Nibble) (b : Byte) : State :=
  { s with v := s.v.set x.toNat b x.isLt }

/-- VF, the flag register (R22). -/
abbrev vf : Nibble := 0xF#4

/-- A result and then its flag: VF is written last, so with x = F the flag remains (R14, R150; D12). -/
def writeResultAndFlag (s : State) (x : Nibble) (b flag : Byte) : State :=
  writeV (writeV s x b) vf flag

/-- V0, V1, ..., as many as there are bytes, get those bytes; the other registers keep theirs (R185). -/
def writeRegsFromV0 (s : State) (bs : List Byte) : State :=
  { s with v := Vector.ofFn fun r : Fin 16 => (bs[r.val]?).getD s.v[r.val] }

/-- The bytes V0..Vx (R184). -/
def regsUpTo (s : State) (x : Nibble) : List Byte :=
  s.v.toList.take (x.toNat + 1)

/-! Memory (R50-R53) -/

/-- What a byte nothing has written reads as: the reset contents of R31, the font and then zeros. -/
def unlisted (font : Vector Byte 80) (a : Nat) : Byte :=
  if h : a < 80 then font[a] else 0

/-- The byte at an address of the memory list. -/
def Memory.read (font : Vector Byte 80) : Memory → Nat → Byte
  | [], a => unlisted font a
  | (b, u) :: m, a => if a = b then u else Memory.read font m a

/-- The memory list with byte `x` at address `a`, in canonical form again. -/
def Memory.write (font : Vector Byte 80) : Memory → Nat → Byte → Memory
  | [], a, x => if x = unlisted font a then [] else [(a, x)]
  | (b, u) :: m, a, x =>
    if a < b then
      if x = unlisted font a then (b, u) :: m else (a, x) :: (b, u) :: m
    else if a = b then
      if x = unlisted font a then m else (a, x) :: m
    else (b, u) :: Memory.write font m a x

/-- The canonical form from address `lo` on: addresses rise strictly and are below 4096, and no entry is what an
unlisted address reads as. -/
def Memory.wfFrom (font : Vector Byte 80) : Nat → Memory → Bool
  | _, [] => true
  | lo, (b, u) :: m =>
    decide (lo ≤ b) && decide (b < 4096) && decide (u ≠ unlisted font b) && Memory.wfFrom font (b + 1) m

/-- The canonical form of a memory. -/
def Memory.wf (font : Vector Byte 80) (m : Memory) : Bool :=
  Memory.wfFrom font 0 m

/-- `Mem[a]`. -/
def readByte (s : State) (a : Nat) : Byte :=
  Memory.read s.cfg.font s.mem a

/-- `Mem[a] <- x`. -/
def writeByte (s : State) (a : Nat) (x : Byte) : State :=
  { s with mem := Memory.write s.cfg.font s.mem a x }

/-- `Mem[a], Mem[a+1], ... <- bs`, unchecked: what a load does (R280). -/
def writeBytes (s : State) (a : Nat) : List Byte → State
  | [] => s
  | b :: bs => writeBytes (writeByte s a b) (a + 1) bs

/-- `MemRead(a, 1)` (R52): a is a natural, not wrapped. -/
def memRead (s : State) (a : Nat) : Except Cause Byte :=
  if a > 0xFFF then .error (.memOutOfRange a) else .ok (readByte s a)

/-- `MemWrite(a, 1, x)` (R53): the range check, then the font check of R60. -/
def memWrite (s : State) (a : Nat) (x : Byte) : Except Cause State :=
  if a > 0xFFF then .error (.memOutOfRange a)
  else if a ≤ 0x04F ∧ s.cfg.fontProtect = .fault then .error (.fontWrite a)
  else .ok (writeByte s a x)

/-- Reads of n bytes in ascending address order (R57), stopping at the first that fails. -/
def loadBytes (s : State) (a : Nat) : Nat → Except Cause (List Byte)
  | 0 => .ok []
  | n + 1 =>
    match memRead s a with
    | .error c => .error c
    | .ok b =>
      match loadBytes s (a + 1) n with
      | .error c => .error c
      | .ok bs => .ok (b :: bs)

/-- Stores of bytes in ascending address order (R57), stopping at the first that fails. -/
def storeBytes (s : State) (a : Nat) : List Byte → Except Cause State
  | [] => .ok s
  | b :: bs =>
    match memWrite s a b with
    | .error c => .error c
    | .ok t => storeBytes t (a + 1) bs

/-! Program counter and stack (R24, R26) -/

/-- `PC <- PC + 2` when a skip's condition holds (R128). -/
def skipIf (s : State) (c : Bool) : State :=
  if c then { s with pc := s.pc + 2 } else s

/-- `push(PC)`: StackOverflow when the stack already holds a finite STACK_LIMIT (R122). -/
def pushPc (s : State) : Except Cause State :=
  if s.cfg.stackLimit = some s.stack.length then .error .stackOverflow
  else .ok { s with stack := s.stack ++ [s.pc] }

/-- `PC <- pop()`: StackUnderflow when the stack is empty (R120). -/
def popPc (s : State) : Except Cause State :=
  match s.stack.getLast? with
  | none => .error .stackUnderflow
  | some a => .ok { s with pc := a, stack := s.stack.dropLast }

/-! Faults (R241-R246) -/

/-- The code of a fault (R241; D23). -/
def Fault.code : Fault → Nat
  | .decodeError _ _ => 1
  | .fetchOutOfRange _ => 2
  | .memOutOfRange _ _ _ => 3
  | .stackUnderflow _ _ => 4
  | .stackOverflow _ _ => 5
  | .fontWrite _ _ _ => 6

/-- The `addr` of a record (R243 (b)). -/
def Fault.addr : Fault → Word
  | .decodeError a _ | .fetchOutOfRange a | .memOutOfRange a _ _ => a
  | .stackUnderflow a _ | .stackOverflow a _ | .fontWrite a _ _ => a

/-- The `word` of a record, none for FetchOutOfRange (R243 (c)). -/
def Fault.word : Fault → Option Word
  | .decodeError _ w | .memOutOfRange _ w _ | .stackUnderflow _ w => some w
  | .stackOverflow _ w | .fontWrite _ w _ => some w
  | .fetchOutOfRange _ => none

/-- The `data_addr` of a record, for MemOutOfRange and FontWrite only (R243 (d)). -/
def Fault.dataAddr : Fault → Option Nat
  | .memOutOfRange _ _ d | .fontWrite _ _ d => some d
  | .decodeError _ _ | .fetchOutOfRange _ | .stackUnderflow _ _ | .stackOverflow _ _ => none

/-- The code of a load error (R281; D23). -/
def LoadError.code : LoadError → Nat
  | .emptyProgram => 16
  | .programTooLarge => 17

/-- The record of R243 made of a cause: an instruction executes with PC = a + 2 (R88), so `addr` is PC - 2, and
`word` is the instruction's word (assumption 20). -/
def faultRecord (ins : Instr) (s : State) : Cause → Fault
  | .memOutOfRange d => .memOutOfRange (s.pc - 2) (encode ins) d
  | .fontWrite d => .fontWrite (s.pc - 2) (encode ins) d
  | .stackUnderflow => .stackUnderflow (s.pc - 2) (encode ins)
  | .stackOverflow => .stackOverflow (s.pc - 2) (encode ins)

/-- Raising a fault, the ONE operation every instruction uses: what the instruction did is discarded and the
machine stops with the record (R241, R244; there is no handler to go to, R248). -/
def raiseFault (ins : Instr) (s : State) (c : Cause) : Host.Outcome State Fault Refusal :=
  .fault (faultRecord ins s c)

/-- The outcome of an instruction begun in state s: the state its effect gives, or the fault it raises. -/
def completeOrRaise (ins : Instr) (s : State) (r : Except Cause State) : Host.Outcome State Fault Refusal :=
  match r with
  | .ok t => .next t
  | .error c => raiseFault ins s c

/-- The state a fault leaves (R244): every field as before the step, and the record set. -/
def faulted (s : State) (r : Fault) : State :=
  { s with fault := some r }

end Sys2Proof.Machine
end

