-- ==== Sys2Proof/Machine/Cycle.lean ====
section
/-! DEFINITION. What a step does around the execution of its instruction (spec/30_encoding.md R87): fetch, advance
of PC, timer reconciliation (spec/60_exceptions.md R250, R251), and the arguments of the next Step call. -/

namespace Sys2Proof.Machine

/-- `FetchWord(PC)` (R54): big-endian, guarded at the top of memory. -/
def fetch (s : State) : Except Fault Word :=
  if s.pc.toNat + 1 > 0xFFF then .error (.fetchOutOfRange s.pc)
  else .ok (wordOfBytes (readByte s s.pc.toNat) (readByte s (s.pc.toNat + 1)))

/-- Fetch and decode, steps 2 and 4 of R87: the instruction at PC or the fault. -/
def fetchDecode (s : State) : Except Fault Instr :=
  match fetch s with
  | .error r => .error r
  | .ok w =>
    match decodeWord w with
    | .ok ins => .ok ins
    | .error _ => .error (.decodeError s.pc w)

/-- The state an instruction executes in: PC <- a + 2 and redraw <- false, steps 3 and 5 of R87. -/
def beginInstr (s : State) : State :=
  { s with pc := s.pc + 2, redraw := false }

/-- DT after k ticks: each takes 1 from a DT above 0 (R250, R253). -/
def countDown (dt : Byte) (k : Nat) : Byte :=
  if dt = 0 then 0 else BitVec.ofNat 8 (dt.toNat - k)

/-- `ReconcileTimers(now)` (R250) as its net effect (R251), in any domain of TIME: what becomes of DT and last_tick
when k ticks are due. ST is not touched (R252). -/
def reconcile {T : Type} [AddCommGroup T] [LinearOrder T] [IsOrderedAddMonoid T] (time : TimeDomain T) (now lastTick : T)
    (dt : Byte) : Byte × T :=
  (countDown dt (time.due (now - lastTick)), lastTick + time.due (now - lastTick) • time.tick)

/-- The number of ticks due: k = max(0, ceil((now - last_tick) / TICK) - 1), the iterations of R250's loop (R251). -/
def ticksDue (now lastTick : Rat) : Nat :=
  TimeDomain.standard.due (now - lastTick)

/-- `ReconcileTimers(now)` (R250) on a state: the reconciliation in R8's default TIME. -/
def reconcileTimers (now : Rat) (s : State) : State :=
  { s with
    dt := (reconcile TimeDomain.standard now s.lastTick s.dt).1
    lastTick := (reconcile TimeDomain.standard now s.lastTick s.dt).2 }

/-- The arguments the host will give its next Step call: free values, with `now` no earlier than the last (R258;
assumptions 1 and 11). -/
def drawInput (s : State) : State :=
  { s with
    input := { now := s.clock + |Config.freeElapsed s.draws|, held := Config.freeHeld s.draws, rnd := Config.freeRnd s.draws }
    keyPick := Config.freePick s.draws
    draws := s.draws + 1 }

/-- The end of a step that did not fault: reconcile the timers (step 6 of R87), note the instant, and take the next
call's arguments. -/
def endStep (s : State) : State :=
  drawInput { reconcileTimers s.input.now s with clock := s.input.now }

/-- The outcome of the whole step from the outcome of its instruction: a fault ends the step at once (R89). -/
def finishStep (o : Host.Outcome State Fault Refusal) : Host.Outcome State Fault Refusal :=
  match o with
  | .next t => .next (endStep t)
  | .fault r => .fault r
  | .refused r => .refused r

/-- The state with a table word stored at PC, high byte first, ready for `step` to fetch and run it: a fault left
by an earlier run is cleared, as a load clears it (R30, R280; assumption 21). -/
def placeWord (s : State) (w : Word) : State :=
  writeBytes { s with fault := none } s.pc.toNat [highByte w, lowByte w]

end Sys2Proof.Machine
end

