-- ==== Sys2Proof/Machine/Flags.lean ====
section
/-! DEFINITION. The 8-bit results and the flag values written to VF (spec/41_register_alu.md, 42_index_memory.md):
exact natural arithmetic first, narrowed at the end (R150). -/

namespace Sys2Proof.Machine

/-- A truth value as the byte a flag holds. -/
def flagByte (c : Bool) : Byte :=
  if c then 1 else 0

/-- `trunc8(a + b)` (R152, R157). -/
def sum8 (a b : Byte) : Byte :=
  BitVec.ofNat 8 (a.toNat + b.toNat)

/-- The carry of an addition: the exact sum is above 255 (R157). -/
def carryFlag (a b : Byte) : Byte :=
  flagByte (decide (a.toNat + b.toNat > 255))

/-- `trunc8(a - b + 256)` (R158, R160). -/
def difference8 (a b : Byte) : Byte :=
  BitVec.ofNat 8 (a.toNat + 256 - b.toNat)

/-- The flag of a subtraction: 1 when the minuend is strictly greater (R158, R160). -/
def greaterFlag (a b : Byte) : Byte :=
  flagByte (decide (a.toNat > b.toNat))

/-- The bit a right shift by one shifts out (R159). -/
def shiftedOutRight (b : Byte) : Byte :=
  b &&& 1

/-- The bit a left shift by one shifts out (R161). -/
def shiftedOutLeft (b : Byte) : Byte :=
  (b >>> 7) &&& 1

/-- The exact sum of FX1E (R181). -/
def indexSum (s : State) (x : Nibble) : Nat :=
  s.i.toNat + (readV s x).toNat

/-- VF after an FX1E that does not wrap, given VF before it (R181; D10, OPEN). -/
def noWrapFlag (m : Fx1eVfNowrap) (old : Byte) : Byte :=
  match m with
  | .unchanged => old
  | .zero => 0

end Sys2Proof.Machine
end

