-- ==== Sys2Proof/Machine/Alu.lean ====
section
/-! DEFINITION. Register loads and ALU (spec/41_register_alu.md). Operands are read from s before anything is
written (R14). -/

namespace Sys2Proof.Machine

/-- 6XNN (R151). -/
def execLdImm (x : Nibble) (nn : Byte) (s : State) : Host.Outcome State Fault Refusal :=
  .next (writeV s x nn)

/-- 7XNN (R152): no flag. -/
def execAddImm (x : Nibble) (nn : Byte) (s : State) : Host.Outcome State Fault Refusal :=
  .next (writeV s x (sum8 (readV s x) nn))

/-- 8XY0 (R153). -/
def execLdReg (x y : Nibble) (s : State) : Host.Outcome State Fault Refusal :=
  .next (writeV s x (readV s y))

/-- 8XY1 (R154): VF unchanged. -/
def execOr (x y : Nibble) (s : State) : Host.Outcome State Fault Refusal :=
  .next (writeV s x (readV s x ||| readV s y))

/-- 8XY2 (R155): VF unchanged. -/
def execAnd (x y : Nibble) (s : State) : Host.Outcome State Fault Refusal :=
  .next (writeV s x (readV s x &&& readV s y))

/-- 8XY3 (R156): VF unchanged. -/
def execXor (x y : Nibble) (s : State) : Host.Outcome State Fault Refusal :=
  .next (writeV s x (readV s x ^^^ readV s y))

/-- 8XY4 (R157): the sum, and VF the carry. -/
def execAddReg (x y : Nibble) (s : State) : Host.Outcome State Fault Refusal :=
  .next (writeResultAndFlag s x (sum8 (readV s x) (readV s y)) (carryFlag (readV s x) (readV s y)))

/-- 8XY5 (R158): VX - VY, and VF = 1 exactly when VX > VY. -/
def execSub (x y : Nibble) (s : State) : Host.Outcome State Fault Refusal :=
  .next (writeResultAndFlag s x (difference8 (readV s x) (readV s y)) (greaterFlag (readV s x) (readV s y)))

/-- 8XY6 (R159): VY shifted right, and VF the bit shifted out. -/
def execShr (x y : Nibble) (s : State) : Host.Outcome State Fault Refusal :=
  .next (writeResultAndFlag s x (readV s y >>> 1) (shiftedOutRight (readV s y)))

/-- 8XY7 (R160): VY - VX, and VF = 1 exactly when VY > VX. -/
def execSubn (x y : Nibble) (s : State) : Host.Outcome State Fault Refusal :=
  .next (writeResultAndFlag s x (difference8 (readV s y) (readV s x)) (greaterFlag (readV s y) (readV s x)))

/-- 8XYE (R161): VY shifted left, and VF the bit shifted out. -/
def execShl (x y : Nibble) (s : State) : Host.Outcome State Fault Refusal :=
  .next (writeResultAndFlag s x (readV s y <<< 1) (shiftedOutLeft (readV s y)))

/-- CXNN (R162): the step's random byte AND NN. -/
def execRnd (x : Nibble) (nn : Byte) (s : State) : Host.Outcome State Fault Refusal :=
  .next (writeV s x (s.input.rnd &&& nn))

end Sys2Proof.Machine
end

