-- ==== Sys2Proof/Machine/Operands.lean ====
section
/-! DEFINITION. The operand forms (spec/30_encoding.md R82) and the address forms of spec/42_index_memory.md. -/

namespace Sys2Proof.Machine

/-- NNN as a 16-bit address: zero-extended, never scaled, never relative (R82 (b)). -/
def absolute (nnn : Addr) : Word :=
  nnn.setWidth 16

/-- The BNNN target (NNN + V0) mod 4096, as a 16-bit address (R127). -/
def computedTarget (nnn : Addr) (v0 : Byte) : Word :=
  BitVec.ofNat 16 ((nnn.toNat + v0.toNat) % 4096)

/-- I as the natural number data addresses are computed from: I + offset never wraps (R52, R53). -/
def dataBase (s : State) : Nat :=
  s.i.toNat

/-- The low nibble of a register value: the logical key of EX9E and EXA1, the glyph number of FX29 (R220, R182). -/
def lowNibble (b : Byte) : Nibble :=
  b.extractLsb' 0 4

/-- The address of the font glyph k: 5 * k (R182, R59). -/
def glyphAddress (k : Nibble) : Word :=
  BitVec.ofNat 16 (k.toNat * 5)

/-- `KeyHeld(k)` (R254). -/
def keyHeld (s : State) (k : Nibble) : Bool :=
  s.input.held[k.toNat]'(k.isLt)

/-- HeldSet as the list of held logical keys, lowest first (R254). -/
def heldKeys (s : State) : List Nibble :=
  ((List.range 16).map (BitVec.ofNat 4)).filter (keyHeld s)

/-- `choose(HeldSet)` (R223; D16): none when no key is held, the key when one is; among several the lowest under
KEY_CHOICE = lowest, and otherwise any of them, as the step's draw picks. -/
def chooseKey (s : State) : Option Nibble :=
  match heldKeys s with
  | [] => none
  | [k] => some k
  | k :: ks =>
    match s.cfg.keyChoice with
    | .lowest => some k
    | .any => some ((k :: ks).getD (s.keyPick % (k :: ks).length) k)

/-- The three decimal digits of a byte, hundreds first (R183). -/
def decimalDigits (b : Byte) : List Byte :=
  [BitVec.ofNat 8 (b.toNat / 100), BitVec.ofNat 8 (b.toNat / 10 % 10), BitVec.ofNat 8 (b.toNat % 10)]

/-- The optional advance of I by FX55 and FX65: I + x + 1 under LDST_I_MODE = advance (R184, R185; D11). -/
def advanceI (s : State) (x : Nibble) : State :=
  match s.cfg.ldstIMode with
  | .unchanged => s
  | .advance => { s with i := s.i + x.setWidth 16 + 1 }

end Sys2Proof.Machine
end

