-- ==== Sys2Proof/Machine/ControlFlow.lean ====
section
/-! DEFINITION. Control flow: returns, jumps, calls and skips (spec/40_control_flow.md). PC is already the address
of the next instruction when a meaning runs (R88). -/

namespace Sys2Proof.Machine

/-- 00EE (R120): pop the top of the stack into PC. -/
def execRet (s : State) : Host.Outcome State Fault Refusal :=
  completeOrRaise .ret s (popPc s)

/-- 1NNN (R121). -/
def execJp (nnn : Addr) (s : State) : Host.Outcome State Fault Refusal :=
  .next { s with pc := absolute nnn }

/-- The effect of 2NNN (R122): push PC, then jump. -/
def callEffect (nnn : Addr) (s : State) : Except Cause State :=
  match pushPc s with
  | .error c => .error c
  | .ok t => .ok { t with pc := absolute nnn }

/-- 2NNN (R122). -/
def execCall (nnn : Addr) (s : State) : Host.Outcome State Fault Refusal :=
  completeOrRaise (.call nnn) s (callEffect nnn s)

/-- 3XNN (R123): skip when VX = NN. -/
def execSeImm (x : Nibble) (nn : Byte) (s : State) : Host.Outcome State Fault Refusal :=
  .next (skipIf s (readV s x == nn))

/-- 4XNN (R124): skip when VX ≠ NN. -/
def execSneImm (x : Nibble) (nn : Byte) (s : State) : Host.Outcome State Fault Refusal :=
  .next (skipIf s (readV s x != nn))

/-- 5XY0 (R125): skip when VX = VY. -/
def execSeReg (x y : Nibble) (s : State) : Host.Outcome State Fault Refusal :=
  .next (skipIf s (readV s x == readV s y))

/-- 9XY0 (R126): skip when VX ≠ VY. -/
def execSneReg (x y : Nibble) (s : State) : Host.Outcome State Fault Refusal :=
  .next (skipIf s (readV s x != readV s y))

/-- BNNN (R127): PC <- (NNN + V0) mod 4096. -/
def execJpV0 (nnn : Addr) (s : State) : Host.Outcome State Fault Refusal :=
  .next { s with pc := computedTarget nnn (readV s 0) }

end Sys2Proof.Machine
end

