-- ==== Sys2Proof/Machine/Display.lean ====
section
/-! DEFINITION. The frame buffer and the display instructions (spec/43_display.md). -/

namespace Sys2Proof.Machine

/-- `Disp[x][y]`; a place outside the grid holds no pixel and reads as unset (R28). -/
def pixel (d : Disp) (x y : Nat) : Bool :=
  if h : x < 64 ∧ y < 32 then (d[x]'h.1)[y]'h.2 else false

/-- `Disp[x][y] <- Disp[x][y] ^ 1`, inside the grid. -/
def flipPixel (d : Disp) (x y : Nat) : Disp :=
  if h : x < 64 ∧ y < 32 then d.set x ((d[x]'h.1).set y (!(d[x]'h.1)[y]'h.2) h.2) h.1 else d

/-- All pixels 0 (R200). -/
def clearDisp : Disp :=
  Vector.replicate 64 (Vector.replicate 32 false)

/-- A frame buffer being drawn on, and whether a set pixel has been met so far. -/
abbrev Canvas := Disp × Bool

/-- One set sprite bit at (px, py): out of the grid it is clipped, inside it toggles the pixel and collides with a
set one (R201). -/
def drawPixel (c : Canvas) (px py : Nat) : Canvas :=
  if px ≤ 63 ∧ py ≤ 31 then (flipPixel c.1 px py, c.2 || pixel c.1 px py) else c

/-- The sprite bit of a row byte at column c, 0..7: bit 7 is column 0 (R201; D6). -/
def spriteBit (row : Byte) (c : Nat) : Bool :=
  row.getLsbD (7 - c)

/-- The columns `cs` of one sprite row whose column 0 stands at (x0, py) (R201). -/
def drawColumns (c : Canvas) (x0 py : Nat) (row : Byte) : List Nat → Canvas
  | [] => c
  | k :: ks => drawColumns (if spriteBit row k then drawPixel c (x0 + k) py else c) x0 py row ks

/-- One sprite row: its columns 0..7. -/
def drawRow (c : Canvas) (x0 py : Nat) (row : Byte) : Canvas :=
  drawColumns c x0 py row [0, 1, 2, 3, 4, 5, 6, 7]

/-- The sprite rows from row py on (R201). -/
def drawRows (c : Canvas) (x0 py : Nat) : List Byte → Canvas
  | [] => c
  | row :: rows => drawRows (drawRow c x0 py row) x0 (py + 1) rows

/-- The frame buffer a draw or a clear leaves, with the redraw flag of the step (R259; D18). -/
def showDisp (s : State) (d : Disp) : State :=
  { s with
    disp := d
    redraw := match s.cfg.redrawMode with
      | .byOpcode => true
      | .byChange => decide (d ≠ s.disp) }

/-- 00E0 (R200). -/
def execCls (s : State) : Host.Outcome State Fault Refusal :=
  .next (showDisp s clearDisp)

/-- The state a sprite of these rows leaves: drawn at VX mod 64, VY mod 32, VF the collision (R201; D25). -/
def drawSprite (s : State) (x y : Nibble) (rows : List Byte) : State :=
  let c := drawRows (s.disp, false) ((readV s x).toNat % 64) ((readV s y).toNat % 32) rows
  writeV (showDisp s c.1) vf (flagByte c.2)

/-- The effect of DXYN (R201): all N rows are read first, which may fault (D20); then they are drawn. -/
def drawEffect (x y n : Nibble) (s : State) : Except Cause State :=
  match loadBytes s (dataBase s) n.toNat with
  | .error c => .error c
  | .ok rows => .ok (drawSprite s x y rows)

/-- DXYN (R201). -/
def execDrw (x y n : Nibble) (s : State) : Host.Outcome State Fault Refusal :=
  completeOrRaise (.drw x y n) s (drawEffect x y n s)

end Sys2Proof.Machine
end

