-- ==== Sys2Proof/Machine/IndexMemory.lean ====
section
/-! DEFINITION. The address register and the memory instructions (spec/42_index_memory.md). -/

namespace Sys2Proof.Machine

/-- ANNN (R180). -/
def execLdI (nnn : Addr) (s : State) : Host.Outcome State Fault Refusal :=
  .next { s with i := absolute nnn }

/-- FX1E (R181): I <- I + VX, wrapped at 4096 with VF = 1; without a wrap VF is as FX1E_VF_NOWRAP says. -/
def addIndexEffect (x : Nibble) (s : State) : State :=
  if indexSum s x ≥ 4096 then
    writeV { s with i := BitVec.ofNat 16 (indexSum s x % 4096) } vf 1
  else
    writeV { s with i := BitVec.ofNat 16 (indexSum s x) } vf (noWrapFlag s.cfg.fx1eVfNowrap (readV s vf))

/-- FX1E (R181). -/
def execAddIVx (x : Nibble) (s : State) : Host.Outcome State Fault Refusal :=
  .next (addIndexEffect x s)

/-- FX29 (R182): I <- the glyph of VX's low nibble. -/
def execLdFVx (x : Nibble) (s : State) : Host.Outcome State Fault Refusal :=
  .next { s with i := glyphAddress (lowNibble (readV s x)) }

/-- FX33 (R183): the decimal digits of VX at I, I+1, I+2. -/
def execLdBVx (x : Nibble) (s : State) : Host.Outcome State Fault Refusal :=
  completeOrRaise (.ldBVx x) s (storeBytes s (dataBase s) (decimalDigits (readV s x)))

/-- The effect of FX55 (R184): store V0..VX at I, then the optional advance of I. -/
def storeRegsEffect (x : Nibble) (s : State) : Except Cause State :=
  match storeBytes s (dataBase s) (regsUpTo s x) with
  | .error c => .error c
  | .ok t => .ok (advanceI t x)

/-- FX55 (R184). -/
def execLdMemVx (x : Nibble) (s : State) : Host.Outcome State Fault Refusal :=
  completeOrRaise (.ldMemVx x) s (storeRegsEffect x s)

/-- The effect of FX65 (R185): load V0..VX from I, then the optional advance of I. -/
def loadRegsEffect (x : Nibble) (s : State) : Except Cause State :=
  match loadBytes s (dataBase s) (x.toNat + 1) with
  | .error c => .error c
  | .ok bs => .ok (advanceI (writeRegsFromV0 s bs) x)

/-- FX65 (R185). -/
def execLdVxMem (x : Nibble) (s : State) : Host.Outcome State Fault Refusal :=
  completeOrRaise (.ldVxMem x) s (loadRegsEffect x s)

end Sys2Proof.Machine
end

