-- ==== Sys2Proof/Machine/TimersInput.lean ====
section
/-! DEFINITION. The key and timer instructions (spec/44_timers_input.md). -/

namespace Sys2Proof.Machine

/-- EX9E (R220): skip when the key of VX's low nibble is held. -/
def execSkp (x : Nibble) (s : State) : Host.Outcome State Fault Refusal :=
  .next (skipIf s (keyHeld s (lowNibble (readV s x))))

/-- EXA1 (R221): skip when it is not held. -/
def execSknp (x : Nibble) (s : State) : Host.Outcome State Fault Refusal :=
  .next (skipIf s (!keyHeld s (lowNibble (readV s x))))

/-- FX07 (R222). -/
def execLdVxDt (x : Nibble) (s : State) : Host.Outcome State Fault Refusal :=
  .next (writeV s x s.dt)

/-- The effect of FX0A (R223): a held key's index into VX, or back to this instruction while none is held. -/
def waitKeyEffect (x : Nibble) (s : State) : State :=
  match chooseKey s with
  | some k => writeV s x (k.setWidth 8)
  | none => { s with pc := s.pc - 2 }

/-- FX0A (R223). -/
def execLdVxK (x : Nibble) (s : State) : Host.Outcome State Fault Refusal :=
  .next (waitKeyEffect x s)

/-- FX15 (R224). -/
def execLdDtVx (x : Nibble) (s : State) : Host.Outcome State Fault Refusal :=
  .next { s with dt := readV s x }

/-- FX18 (R225). -/
def execLdStVx (x : Nibble) (s : State) : Host.Outcome State Fault Refusal :=
  .next { s with st := readV s x }

end Sys2Proof.Machine
end

