-- ==== Sys2Proof/Machine/Step.lean ====
section
/-! DEFINITION. One step of the machine (spec/30_encoding.md R87), its arguments in `State.input`. -/

namespace Sys2Proof.Machine

/-- `Step` (R87). A machine whose fault is set takes no step and gives the same record back (R245). -/
def step (s : State) : Host.Outcome State Fault Refusal :=
  match s.fault with
  | some r => .fault r
  | none =>
    match fetchDecode s with
    | .error r => .fault r
    | .ok ins => finishStep (exec ins (beginInstr s))

/-- The state whose next step runs the instruction of a table word. -/
def State.withFetchWord (s : State) (nbits w : Nat) : State :=
  placeWord s (tableWord nbits w)

end Sys2Proof.Machine
end

