-- ==== Sys2Proof/Machine/HostCalls.lean ====
section
/-! DEFINITION. The block's whole interface to the host (spec/60_exceptions.md R258): Load, Step and Render. A box
holds no machine until a load succeeds (spec/70_reset_and_hazards.md R281). -/

namespace Sys2Proof.Machine

/-- The state a load of program P at instant t0 leaves (R280, R31), under the parameters cfg. -/
def loadedState (cfg : Config) (p : List Byte) (t0 : Rat) : State :=
  writeBytes
    { State.reset with
      cfg := cfg
      lastTick := t0
      clock := t0
      input := { State.reset.input with now := t0 + |Config.freeElapsed 0| } }
    0x200 p

/-- `Load(P, t0)` (R280, R281). -/
def load (cfg : Config) (p : List Byte) (t0 : Rat) : Except LoadError State :=
  if p.length = 0 then .error .emptyProgram
  else if p.length > 3584 then .error .programTooLarge
  else .ok (loadedState cfg p t0)

/-- The Load call: whatever machine there was is discarded, and a rejected load leaves none (R258, R281, R282). -/
def hostLoad (_box : Option State) (cfg : Config) (p : List Byte) (t0 : Rat) : Option State × Option LoadError :=
  match load cfg p t0 with
  | .ok s => (some s, none)
  | .error e => (none, some e)

/-- The Step call on a machine (R258): a faulted machine gives its record back and nothing changes (R245); a `now`
before the last one is refused (U17); a step that faults leaves the state of R244. -/
def stepMachine (s : State) (inp : StepInput) : State × StepResult :=
  match s.fault with
  | some r => (s, .fault r)
  | none =>
    if inp.now < s.clock then (s, .refused .clockWentBack)
    else
      match step { s with input := inp } with
      | .next t => (t, .ok t.redraw)
      | .fault r => (faulted s r, .fault r)
      | .refused r => (s, .refused r)

/-- The Step call: without a machine it is refused (R281; U16). -/
def hostStep (box : Option State) (inp : StepInput) : Option State × StepResult :=
  match box with
  | none => (none, .refused .noMachine)
  | some s => (some (stepMachine s inp).1, (stepMachine s inp).2)

/-- The Render call: the frame buffer as the last step left it (R257, R258). Without a machine, before any successful
load or after a rejected one, it gives no grid. DESIGN CHOICE (assumption 31), safe: R258 gives Render's output as a grid,
and R281, D28 and U16 decide the case without a machine for Step alone. -/
def hostRender (box : Option State) : Option Disp :=
  box.map State.disp

end Sys2Proof.Machine
end

