-- ==== Sys2Proof/Machine/AnyTime.lean ====
section
/-! DEFINITION. The machine over any domain of TIME (spec/00_scope.md R8; D27). No instruction reads or writes an
instant (spec/10_state.md R29), so a step in any domain is a step of the block in which none of its own time passes,
and then the timer reconciliation in the domain (spec/60_exceptions.md R250). -/

namespace Sys2Proof.Machine

/-- A machine whose instants lie in T. -/
structure TimedState (T : Type) where
  /-- The state of R20 but for its instants: the block's own rational instants take no part. -/
  block : State
  /-- last_tick (R29), in T. -/
  lastTick : T
  /-- The instant of the last Step call, or of the load (R258), in T. -/
  clock : T
  deriving DecidableEq, Repr

/-- The arguments of a Step call (R258) whose instant lies in T. -/
structure TimedInput (T : Type) where
  now : T
  held : Vector Bool 16
  rnd : Byte
  deriving DecidableEq, Repr

/-- The block with the held keys and the random byte of a step, its own instants all 0: in its step no tick is due. -/
def untimed (s : State) (held : Vector Bool 16) (rnd : Byte) : State :=
  { s with lastTick := 0, clock := 0, input := { now := 0, held := held, rnd := rnd } }

variable {T : Type} [AddCommGroup T] [LinearOrder T] [IsOrderedAddMonoid T]

/-- The timed state after a step that left the block in u: DT and last_tick reconciled with the call's now (R250). -/
def timedAfter (time : TimeDomain T) (now lastTick : T) (u : State) : TimedState T where
  block := { u with dt := (reconcile time now lastTick u.dt).1 }
  lastTick := (reconcile time now lastTick u.dt).2
  clock := now

/-- `Step` (R87) in a domain of TIME. -/
def stepIn (time : TimeDomain T) (inp : TimedInput T) (s : TimedState T) :
    Host.Outcome (TimedState T) Fault Refusal :=
  match step (untimed s.block inp.held inp.rnd) with
  | .next u => .next (timedAfter time inp.now s.lastTick u)
  | .fault r => .fault r
  | .refused r => .refused r

/-- `Load(P, t0)` (R280, R281) at an instant of T. -/
def loadIn (cfg : Config) (p : List Byte) (t0 : T) : Except LoadError (TimedState T) :=
  match load cfg p 0 with
  | .ok s => .ok { block := s, lastTick := t0, clock := t0 }
  | .error e => .error e

/-- The Step call (R258) on a machine over T: as `stepMachine` has it, with the fault of R244 and the refusal of U17. -/
def stepMachineIn (time : TimeDomain T) (s : TimedState T) (inp : TimedInput T) : TimedState T × StepResult :=
  match s.block.fault with
  | some r => (s, .fault r)
  | none =>
    if inp.now < s.clock then (s, .refused .clockWentBack)
    else
      match stepIn time inp s with
      | .next t => (t, .ok t.block.redraw)
      | .fault r => ({ s with block := faulted s.block r }, .fault r)
      | .refused r => (s, .refused r)

/-- A state as a machine over R8's default TIME. -/
def State.timed (s : State) : TimedState Rat where
  block := s
  lastTick := s.lastTick
  clock := s.clock

/-- Arguments of a Step call as those of a machine over R8's default TIME. -/
def StepInput.timed (inp : StepInput) : TimedInput Rat where
  now := inp.now
  held := inp.held
  rnd := inp.rnd

end Sys2Proof.Machine
end

