-- ==== Sys2Proof/Safety.lean ====
section
/-! DEFINITION. What counts as a safe run, and the terms claims are stated in: running, stopping, the parked end of
a run (spec/60_exceptions.md R263). -/

namespace Sys2Proof

open Machine

/-- A running machine: no fatal error has been recorded (R30). -/
def Running (s : State) : Prop :=
  s.fault = none

/-- A step that completes, leaving state t. -/
def StepsTo (s t : State) : Prop :=
  step s = .next t

/-- A step that stops with a fault record. -/
def StepFaults (s : State) (r : Fault) : Prop :=
  step s = .fault r

/-- A state from which n steps complete without a fault. -/
def SafeFor : Nat → State → Prop
  | 0, _ => True
  | n + 1, s => ∃ t, StepsTo s t ∧ SafeFor n t

/-- A state parked at p (R263; D26): the word at PC = p is the jump to itself. -/
def ParkedAt (p : Nat) (s : State) : Prop :=
  Running s ∧ p ≤ 0xFFE ∧ s.pc = BitVec.ofNat 16 p ∧
    (readByte s p).toNat = 0x10 + p / 256 ∧ (readByte s (p + 1)).toNat = p % 256

/-- The font area holds FONT (R60). -/
def FontIntact (s : State) : Prop :=
  ∀ a, a < 80 → readByte s a = unlisted s.cfg.font a

/-- The invariant of a machine that was loaded: memory is canonical; the font is intact where it is protected (R60);
I and PC are in the ranges of R23 and R25; the saved return addresses and the stack's depth are in theirs (R25, R26);
the host's clock does not go back (R258), and the timer block has caught up with it (R251). -/
structure MachineInv (s : State) : Prop where
  memCanonical : Memory.wf s.cfg.font s.mem = true
  fontIntact : s.cfg.fontProtect = .fault → FontIntact s
  indexInRange : s.i.toNat ≤ 0x1000
  indexKept : s.cfg.ldstIMode = .unchanged → s.i.toNat ≤ 0xFFF
  pcInRange : s.pc.toNat ≤ 0x1002
  returnsInRange : ∀ a ∈ s.stack, a.toNat ≤ 0x1000
  depthInLimit : ∀ n, s.cfg.stackLimit = some n → s.stack.length ≤ n
  clockAhead : s.clock ≤ s.input.now
  tickPhase : 0 ≤ s.clock - s.lastTick ∧ s.clock - s.lastTick ≤ tick

/-- The parts of the state an instruction may change. -/
inductive Part where
  | v
  | i
  | pc
  | stack
  | dt
  | st
  | mem
  | disp
  | redraw
  deriving DecidableEq, Repr

/-- The frame (R15): from s to t nothing changed but the named parts. What is left out of `Part` (last_tick, the fault
record, the parameters and the step's arguments and draws) no instruction changes. -/
structure KeepsAllBut (changed : List Part) (s t : State) : Prop where
  registers : Part.v ∉ changed → ∀ r, readV t r = readV s r
  index : Part.i ∉ changed → t.i = s.i
  counter : Part.pc ∉ changed → t.pc = s.pc
  returns : Part.stack ∉ changed → t.stack = s.stack
  delay : Part.dt ∉ changed → t.dt = s.dt
  sound : Part.st ∉ changed → t.st = s.st
  bytes : Part.mem ∉ changed → ∀ a, readByte t a = readByte s a
  pixels : Part.disp ∉ changed → ∀ x y, pixel t.disp x y = pixel s.disp x y
  flag : Part.redraw ∉ changed → t.redraw = s.redraw
  rest : t.lastTick = s.lastTick ∧ t.fault = s.fault ∧ t.cfg = s.cfg ∧ t.input = s.input ∧ t.keyPick = s.keyPick ∧
    t.clock = s.clock ∧ t.draws = s.draws

/-- Instruction i completes in s, leaving register x at the number n and nothing else changed. -/
def SetsRegister (i : Instr) (s : State) (x : Nibble) (n : Nat) : Prop :=
  ∃ t, exec i s = .next t ∧ (readV t x).toNat = n ∧ (∀ r, r ≠ x → readV t r = readV s r) ∧ KeepsAllBut [.v] s t

/-- Instruction i completes in s, leaving VF at f, register x at n unless x is VF, and nothing else changed (R14). -/
def SetsRegisterAndFlag (i : Instr) (s : State) (x : Nibble) (n f : Nat) : Prop :=
  ∃ t, exec i s = .next t ∧ (x ≠ vf → (readV t x).toNat = n) ∧ (readV t vf).toNat = f ∧
    (∀ r, r ≠ x → r ≠ vf → readV t r = readV s r) ∧ KeepsAllBut [.v] s t

/-- Instruction i completes in s, adding 2 to PC exactly when c holds, and nothing else changed (R128). -/
def SkipsWhen (i : Instr) (s : State) (c : Prop) : Prop :=
  ∃ t, exec i s = .next t ∧ (c → t.pc = s.pc + 2) ∧ (¬ c → t.pc = s.pc) ∧ KeepsAllBut [.pc] s t

/-- Logical key k is held in this step (R254). -/
def Held (s : State) (k : Nibble) : Prop :=
  s.input.held[k.toNat]'(k.isLt) = true

/-- The registers an instruction names as a destination or writes as a flag (R22). -/
def writesRegister (i : Instr) (r : Nibble) : Bool :=
  match i with
  | .ldImm x _ | .addImm x _ | .ldReg x _ | .or x _ | .and x _ | .xor x _ | .rnd x _ | .ldVxDt x | .ldVxK x => r == x
  | .addReg x _ | .sub x _ | .shr x _ | .subn x _ | .shl x _ => r == x || r == vf
  | .drw _ _ _ | .addIVx _ => r == vf
  | .ldVxMem x => decide (r.toNat ≤ x.toNat)
  | .cls | .ret | .jp _ | .call _ | .seImm _ _ | .sneImm _ _ | .seReg _ _ | .sneReg _ _ | .ldI _ | .jpV0 _ => false
  | .skp _ | .sknp _ | .ldDtVx _ | .ldStVx _ | .ldFVx _ | .ldBVx _ | .ldMemVx _ => false

/-- The two display instructions (R202). -/
def isDisplayInstr (i : Instr) : Bool :=
  match i with
  | .cls | .drw _ _ _ => true
  | _ => false

/-- The three key instructions (R254). -/
def isKeyInstr (i : Instr) : Bool :=
  match i with
  | .skp _ | .sknp _ | .ldVxK _ => true
  | _ => false

/-- Whether DXYN in s would light the place (px, py): it lies in the 8 columns and N rows whose origin is VX mod 64,
VY mod 32, and its bit of the row read at I is set, bit 7 being column 0 (R201). -/
def drawLights (s : State) (x y n : Nibble) (px py : Nat) : Bool :=
  decide ((readV s x).toNat % 64 ≤ px ∧ px < (readV s x).toNat % 64 + 8 ∧
      (readV s y).toNat % 32 ≤ py ∧ py < (readV s y).toNat % 32 + n.toNat) &&
    (readByte s (s.i.toNat + (py - (readV s y).toNat % 32))).getLsbD (7 - (px - (readV s x).toNat % 64))

/-- Two outcomes of one kind, their states related by R, their reasons equal. -/
def OutcomesAgree (R : State → State → Prop) (o p : Host.Outcome State Fault Refusal) : Prop :=
  match o, p with
  | .next t, .next u => R t u
  | .fault r, .fault q => r = q
  | .refused r, .refused q => r = q
  | _, _ => False

end Sys2Proof
end

