-- ==== Sys2Proof/Certificates/Slice0/Obligations.lean ====
section
/-! DEFINITION. The statements for the provers, from the numbered rules of spec/. -/

open Sys2Proof Sys2Proof.Machine

/-! Encoding -/

/-- Decoding the encoding of an instruction gives it back, as a word and as the two bytes it is stored as (R80, R83). -/
def Obligations.DecodeOfEncode : Prop :=
  ∀ (i : Instr) (rest : List Byte),
    decodeWord (encode i) = .ok i ∧ decode (encodeBytes i ++ rest) = .ok (i, rest)

/-- R86: every bit of a legal word is a fixed bit or a field, so a word is the encoding of what it decodes to; and every
word that no instruction encodes to faults. -/
def Obligations.EveryBitIsFixedOrField : Prop :=
  (∀ w i, decodeWord w = .ok i → encode i = w) ∧
    ∀ w s, (∀ i, encode i ≠ w) → Running s → fetch s = .ok w → step s = .fault (.decodeError s.pc w)

/-- R85: the illegal words are exactly the classes (a)-(f), the complement of the opcode table's rows, and a step that
fetches one faults with its address and word. R85's count of words, marked there as derived, is not stated. -/
def Obligations.IllegalWordsAreThoseListed : Prop :=
  ∀ w, (∀ c, decodeWord w = .error c ↔ illegalClass w = some c) ∧ (wordLegal w = true ↔ illegalClass w = none) ∧
    ∀ s c, Running s → fetch s = .ok w → illegalClass w = some c → step s = .fault (.decodeError s.pc w)

/-- A few words of the spec's own examples decode to the instructions they stand for. -/
def Obligations.ExampleWordsDecode : Prop :=
  decodeWord 0x00E0 = .ok .cls ∧ decodeWord 0x1204 = .ok (.jp 0x204) ∧ decodeWord 0x4206 = .ok (.sneImm 2 0x06) ∧
    decodeWord 0x8546 = .ok (.shr 5 4) ∧ decodeWord 0xDAB2 = .ok (.drw 0xA 0xB 2) ∧
    decodeWord 0xE19E = .ok (.skp 1) ∧ decodeWord 0xF31E = .ok (.addIVx 3) ∧ decodeWord 0x5001 = .error .family5

/-- R54: the fetch reads two bytes, the first the high byte, and is guarded at the top of memory. -/
def Obligations.FetchIsBigEndianAndGuarded : Prop :=
  ∀ s, (s.pc.toNat + 1 > 0xFFF →
      fetch s = .error (.fetchOutOfRange s.pc) ∧ (Running s → step s = .fault (.fetchOutOfRange s.pc))) ∧
    (s.pc.toNat + 1 ≤ 0xFFF →
      ∃ w, fetch s = .ok w ∧
        w.toNat = 256 * (readByte s s.pc.toNat).toNat + (readByte s (s.pc.toNat + 1)).toNat)

/-- R87-R89: when the bytes at PC decode to i, the step is exec of i with PC advanced and the redraw flag cleared, then
the timer reconciliation with this call's now, then the next call's
arguments (the model's own, assumption 1); a fault ends it at once. -/
def Obligations.StepRunsDecodedInstruction : Prop :=
  ∀ s i, Running s → s.pc.toNat + 1 ≤ 0xFFF →
    decodeWord (wordOfBytes (readByte s s.pc.toNat) (readByte s (s.pc.toNat + 1))) = .ok i →
    step s =
      match exec i { s with pc := s.pc + 2, redraw := false } with
      | .next u => .next (drawInput { reconcileTimers s.input.now u with clock := s.input.now })
      | .fault r => .fault r
      | .refused q => .refused q

/-! Control flow -/

/-- R120: RET pops the top of the stack into PC. The StackUnderflow of an empty stack is the spec's decision D14; its
record (R243) names PC - 2, the a of R88, and the instruction's word, which is the model's inference (assumption 20). -/
def Obligations.ReturnPopsStack : Prop :=
  decodeWord 0x00EE = .ok .ret ∧ ∀ s,
    (∀ a rest, s.stack = rest ++ [a] →
      ∃ t, exec .ret s = .next t ∧ t.pc = a ∧ t.stack = rest ∧ KeepsAllBut [.pc, .stack] s t) ∧
    (s.stack = [] → exec .ret s = .fault (.stackUnderflow (s.pc - 2) 0x00EE))

/-- R121: JP sets PC to NNN. -/
def Obligations.JumpSetsPc : Prop :=
  ∀ nnn s, decodeWord (formatA 0x1#4 nnn) = .ok (.jp nnn) ∧
    ∃ t, exec (.jp nnn) s = .next t ∧ t.pc.toNat = nnn.toNat ∧ KeepsAllBut [.pc] s t

/-- R122: CALL pushes PC, the address of the next instruction, and jumps. The StackOverflow under a finite STACK_LIMIT
is the spec's decision D15; its record (R243) names PC - 2, the a of R88, and the instruction's word, which is the
model's inference (assumption 20). -/
def Obligations.CallPushesReturn : Prop :=
  ∀ nnn s, decodeWord (formatA 0x2#4 nnn) = .ok (.call nnn) ∧
    (s.cfg.stackLimit ≠ some s.stack.length →
      ∃ t, exec (.call nnn) s = .next t ∧ t.pc.toNat = nnn.toNat ∧ t.stack = s.stack ++ [s.pc] ∧
        KeepsAllBut [.pc, .stack] s t) ∧
    (s.cfg.stackLimit = some s.stack.length →
      exec (.call nnn) s = .fault (.stackOverflow (s.pc - 2) (formatA 0x2#4 nnn)))

/-- R123-R126, R128, R220, R221: every skip adds exactly 2 to PC when its condition holds, and changes nothing else. -/
def Obligations.SkipsAddTwoWhenTrue : Prop :=
  ∀ (x y : Nibble) (nn : Byte) (s : State),
    (decodeWord (formatI 0x3#4 x nn) = .ok (.seImm x nn) ∧ SkipsWhen (.seImm x nn) s (readV s x = nn)) ∧
    (decodeWord (formatI 0x4#4 x nn) = .ok (.sneImm x nn) ∧ SkipsWhen (.sneImm x nn) s (readV s x ≠ nn)) ∧
    (decodeWord (formatR 0x5#4 x y 0x0#4) = .ok (.seReg x y) ∧ SkipsWhen (.seReg x y) s (readV s x = readV s y)) ∧
    (decodeWord (formatR 0x9#4 x y 0x0#4) = .ok (.sneReg x y) ∧ SkipsWhen (.sneReg x y) s (readV s x ≠ readV s y)) ∧
    (decodeWord (formatI 0xE#4 x 0x9E#8) = .ok (.skp x) ∧
      SkipsWhen (.skp x) s (Held s (BitVec.ofNat 4 ((readV s x).toNat % 16)))) ∧
    (decodeWord (formatI 0xE#4 x 0xA1#8) = .ok (.sknp x) ∧
      SkipsWhen (.sknp x) s (¬ Held s (BitVec.ofNat 4 ((readV s x).toNat % 16))))

/-- R127: JP V0 sets PC to (NNN + V0) mod 4096. -/
def Obligations.ComputedJumpWraps : Prop :=
  ∀ nnn s, decodeWord (formatA 0xB#4 nnn) = .ok (.jpV0 nnn) ∧
    ∃ t, exec (.jpV0 nnn) s = .next t ∧ t.pc.toNat = (nnn.toNat + (readV s 0).toNat) % 4096 ∧ KeepsAllBut [.pc] s t

/-- R120 and R122 together: a return, in any state whose stack is as a call left it, goes to the instruction after the
call and gives the stack back. -/
def Obligations.ReturnUndoesCall : Prop :=
  ∀ nnn s t u, exec (.call nnn) s = .next t → u.stack = t.stack →
    ∃ r, exec .ret u = .next r ∧ r.pc = s.pc ∧ r.stack = s.stack

/-- R24: where each instruction, begun at address a = PC, leaves PC. -/
def Obligations.CounterAfterInstruction : Prop :=
  ∀ s i u, exec i (beginInstr s) = .next u →
    match i with
    | .seImm _ _ | .sneImm _ _ | .seReg _ _ | .sneReg _ _ | .skp _ | .sknp _ => u.pc = s.pc + 2 ∨ u.pc = s.pc + 4
    | .jp nnn | .call nnn => u.pc.toNat = nnn.toNat
    | .jpV0 nnn => u.pc.toNat = (nnn.toNat + (readV s 0).toNat) % 4096
    | .ret => s.stack.getLast? = some u.pc
    | .ldVxK _ => ((∃ k, Held s k) ∧ u.pc = s.pc + 2) ∨ ((∀ k, ¬ Held s k) ∧ u.pc = s.pc)
    | _ => u.pc = s.pc + 2

/-! Registers and ALU -/

/-- R151-R153: load immediate, add immediate modulo 256 with no flag, copy. -/
def Obligations.LoadsAndAddImmediate : Prop :=
  ∀ (x y : Nibble) (nn : Byte) (s : State),
    (decodeWord (formatI 0x6#4 x nn) = .ok (.ldImm x nn) ∧ SetsRegister (.ldImm x nn) s x nn.toNat) ∧
    (decodeWord (formatI 0x7#4 x nn) = .ok (.addImm x nn) ∧
      SetsRegister (.addImm x nn) s x (((readV s x).toNat + nn.toNat) % 256)) ∧
    (decodeWord (formatR 0x8#4 x y 0x0#4) = .ok (.ldReg x y) ∧ SetsRegister (.ldReg x y) s x (readV s y).toNat)

/-- R154-R156: OR, AND and XOR. That VF is unchanged is the spec's decision D13. -/
def Obligations.LogicLeavesFlag : Prop :=
  ∀ (x y : Nibble) (s : State),
    (decodeWord (formatR 0x8#4 x y 0x1#4) = .ok (.or x y) ∧
      SetsRegister (.or x y) s x ((readV s x).toNat ||| (readV s y).toNat)) ∧
    (decodeWord (formatR 0x8#4 x y 0x2#4) = .ok (.and x y) ∧
      SetsRegister (.and x y) s x ((readV s x).toNat &&& (readV s y).toNat)) ∧
    (decodeWord (formatR 0x8#4 x y 0x3#4) = .ok (.xor x y) ∧
      SetsRegister (.xor x y) s x ((readV s x).toNat ^^^ (readV s y).toNat))

/-- R157, R158, R160: the sum with its carry, and the differences with the strict comparison of the old values; the flag
is what remains in VF. -/
def Obligations.AddAndSubtractSetFlag : Prop :=
  ∀ (x y : Nibble) (s : State),
    (decodeWord (formatR 0x8#4 x y 0x4#4) = .ok (.addReg x y) ∧
      SetsRegisterAndFlag (.addReg x y) s x (((readV s x).toNat + (readV s y).toNat) % 256)
        (if (readV s x).toNat + (readV s y).toNat > 255 then 1 else 0)) ∧
    (decodeWord (formatR 0x8#4 x y 0x5#4) = .ok (.sub x y) ∧
      SetsRegisterAndFlag (.sub x y) s x ((readV s x - readV s y).toNat)
        (if (readV s x).toNat > (readV s y).toNat then 1 else 0)) ∧
    (decodeWord (formatR 0x8#4 x y 0x7#4) = .ok (.subn x y) ∧
      SetsRegisterAndFlag (.subn x y) s x ((readV s y - readV s x).toNat)
        (if (readV s y).toNat > (readV s x).toNat then 1 else 0))

/-- R159, R161: the shifts of VY by one, and VF the bit shifted out. -/
def Obligations.ShiftsTakeVyAndSetFlag : Prop :=
  ∀ (x y : Nibble) (s : State),
    (decodeWord (formatR 0x8#4 x y 0x6#4) = .ok (.shr x y) ∧
      SetsRegisterAndFlag (.shr x y) s x ((readV s y).toNat / 2) ((readV s y).toNat % 2)) ∧
    (decodeWord (formatR 0x8#4 x y 0xE#4) = .ok (.shl x y) ∧
      SetsRegisterAndFlag (.shl x y) s x ((readV s y).toNat * 2 % 256) ((readV s y).toNat / 128))

/-- R162: the step's random byte AND NN; the bits where NN is 0 are 0 whatever the byte. -/
def Obligations.RandomByteIsMasked : Prop :=
  ∀ (x : Nibble) (nn : Byte) (s : State), decodeWord (formatI 0xC#4 x nn) = .ok (.rnd x nn) ∧
    SetsRegister (.rnd x nn) s x (s.input.rnd &&& nn).toNat ∧
    ∀ t, exec (.rnd x nn) s = .next t → readV t x &&& ~~~nn = 0

/-- R15, R22: an instruction that completes changes no register but the ones it names as a destination or writes as a
flag. That what a rule does not name is unchanged is the spec's decision D13. -/
def Obligations.OnlyNamedRegistersChange : Prop :=
  ∀ i s t r, exec i s = .next t → writesRegister i r = false → readV t r = readV s r

/-! Index and memory -/

/-- R180, R182: I gets NNN, or the font glyph of VX's low nibble. -/
def Obligations.IndexGetsAddressOrGlyph : Prop :=
  ∀ nnn (x : Nibble) s,
    (decodeWord (formatA 0xA#4 nnn) = .ok (.ldI nnn) ∧
      ∃ t, exec (.ldI nnn) s = .next t ∧ t.i.toNat = nnn.toNat ∧ KeepsAllBut [.i] s t) ∧
    (decodeWord (formatI 0xF#4 x 0x29#8) = .ok (.ldFVx x) ∧
      ∃ t, exec (.ldFVx x) s = .next t ∧ t.i.toNat = 5 * ((readV s x).toNat % 16) ∧ KeepsAllBut [.i] s t)

/-- R181: I + VX, wrapped at 4096 with VF = 1. VF without a wrap is the OPEN parameter FX1E_VF_NOWRAP (D10), and the
statement holds for both of its values. -/
def Obligations.AddIndexWraps : Prop :=
  ∀ (x : Nibble) s, decodeWord (formatI 0xF#4 x 0x1E#8) = .ok (.addIVx x) ∧
    ∃ t, exec (.addIVx x) s = .next t ∧ (∀ r, r ≠ vf → readV t r = readV s r) ∧ KeepsAllBut [.i, .v] s t ∧
      if s.i.toNat + (readV s x).toNat ≥ 4096 then
        t.i.toNat = (s.i.toNat + (readV s x).toNat) % 4096 ∧ readV t vf = 1
      else
        t.i.toNat = s.i.toNat + (readV s x).toNat ∧
          readV t vf = (match s.cfg.fx1eVfNowrap with | .unchanged => readV s vf | .zero => 0)

/-- R183: the decimal digits of VX at I, I+1, I+2. The faults are the spec's decisions D2 (out of range, the lowest
failing address) and D4 (the protected font); their records (R243) name PC - 2, the a of R88, and the instruction's word,
which is the model's inference (assumption 20). -/
def Obligations.BcdStoresDigits : Prop :=
  ∀ (x : Nibble) s, Memory.wf s.cfg.font s.mem = true →
    decodeWord (formatI 0xF#4 x 0x33#8) = .ok (.ldBVx x) ∧
    (dataBase s + 3 ≤ 4096 → (s.cfg.fontProtect = .fault → 80 ≤ dataBase s) →
      ∃ t, exec (.ldBVx x) s = .next t ∧
        (readByte t (dataBase s)).toNat = (readV s x).toNat / 100 ∧
        (readByte t (dataBase s + 1)).toNat = (readV s x).toNat / 10 % 10 ∧
        (readByte t (dataBase s + 2)).toNat = (readV s x).toNat % 10 ∧
        (∀ c, c < dataBase s ∨ dataBase s + 3 ≤ c → readByte t c = readByte s c) ∧ KeepsAllBut [.mem] s t) ∧
    (dataBase s < 80 → s.cfg.fontProtect = .fault →
      exec (.ldBVx x) s = .fault (.fontWrite (s.pc - 2) (formatI 0xF#4 x 0x33#8) (dataBase s))) ∧
    (4096 < dataBase s + 3 →
      exec (.ldBVx x) s = .fault (.memOutOfRange (s.pc - 2) (formatI 0xF#4 x 0x33#8) (max (dataBase s) 4096)))

/-- R184: V0..VX stored from I on; I as LDST_I_MODE says (D11). The faults are the spec's decisions D2 and D4;
their records (R243) name PC - 2, the a of R88, and the instruction's word, which is the model's inference
(assumption 20). -/
def Obligations.StoreRegistersAtIndex : Prop :=
  ∀ (x : Nibble) s, Memory.wf s.cfg.font s.mem = true →
    decodeWord (formatI 0xF#4 x 0x55#8) = .ok (.ldMemVx x) ∧
    (dataBase s + x.toNat + 1 ≤ 4096 → (s.cfg.fontProtect = .fault → 80 ≤ dataBase s) →
      ∃ t, exec (.ldMemVx x) s = .next t ∧
        (∀ r : Nibble, r.toNat ≤ x.toNat → readByte t (dataBase s + r.toNat) = readV s r) ∧
        (∀ c, c < dataBase s ∨ dataBase s + x.toNat + 1 ≤ c → readByte t c = readByte s c) ∧
        t.i.toNat = (match s.cfg.ldstIMode with | .unchanged => s.i.toNat | .advance => s.i.toNat + x.toNat + 1) ∧
        KeepsAllBut [.mem, .i] s t) ∧
    (dataBase s < 80 → s.cfg.fontProtect = .fault →
      exec (.ldMemVx x) s = .fault (.fontWrite (s.pc - 2) (formatI 0xF#4 x 0x55#8) (dataBase s))) ∧
    (4096 < dataBase s + x.toNat + 1 →
      exec (.ldMemVx x) s = .fault (.memOutOfRange (s.pc - 2) (formatI 0xF#4 x 0x55#8) (max (dataBase s) 4096)))

/-- R185: V0..VX loaded from I on; I as LDST_I_MODE says (D11). The fault is the spec's decision D2; its
record (R243) names PC - 2, the a of R88, and the instruction's word, which is the model's inference (assumption 20). -/
def Obligations.LoadRegistersFromIndex : Prop :=
  ∀ (x : Nibble) s, decodeWord (formatI 0xF#4 x 0x65#8) = .ok (.ldVxMem x) ∧
    (dataBase s + x.toNat + 1 ≤ 4096 →
      ∃ t, exec (.ldVxMem x) s = .next t ∧
        (∀ r : Nibble, readV t r = if r.toNat ≤ x.toNat then readByte s (dataBase s + r.toNat) else readV s r) ∧
        t.i.toNat = (match s.cfg.ldstIMode with | .unchanged => s.i.toNat | .advance => s.i.toNat + x.toNat + 1) ∧
        KeepsAllBut [.v, .i] s t) ∧
    (4096 < dataBase s + x.toNat + 1 →
      exec (.ldVxMem x) s = .fault (.memOutOfRange (s.pc - 2) (formatI 0xF#4 x 0x65#8) (max (dataBase s) 4096)))

/-- R51: a completed step changes a byte of memory only by FX33 or FX55, and only a byte it stores to. -/
def Obligations.OnlyStoresWriteMemory : Prop :=
  ∀ s t a, step s = .next t → readByte t a ≠ readByte s a →
    ∃ x, (fetchDecode s = .ok (.ldBVx x) ∧ s.i.toNat ≤ a ∧ a < s.i.toNat + 3) ∨
      (fetchDecode s = .ok (.ldMemVx x) ∧ s.i.toNat ≤ a ∧ a ≤ s.i.toNat + x.toNat)

/-- R65, R286: what FX55 stores is what the next fetch from there reads, high byte first. -/
def Obligations.StoredCodeIsFetched : Prop :=
  ∀ (x : Nibble) s t u, Memory.wf s.cfg.font s.mem = true → 1 ≤ x.toNat → exec (.ldMemVx x) s = .next t →
    u.pc = s.i → u.mem = t.mem → u.cfg = t.cfg → fetch u = .ok (wordOfBytes (readV s 0) (readV s 1))

/-- R60: under FONT_PROTECT = fault, the spec's decision D4, no completed instruction changes a byte of the font. -/
def Obligations.ProtectedFontIsNeverWritten : Prop :=
  ∀ i s t a, s.cfg.fontProtect = .fault → exec i s = .next t → a < 80 → readByte t a = readByte s a

/-! Display -/

/-- R200: CLS clears every pixel. The redraw flag follows REDRAW_MODE, the spec's decision D18;
the field that holds it is the model's own (assumption 10). -/
def Obligations.ClearScreenClearsAll : Prop :=
  decodeWord 0x00E0 = .ok .cls ∧ ∀ s,
    ∃ t, exec .cls s = .next t ∧ (∀ x y, pixel t.disp x y = false) ∧
      (s.cfg.redrawMode = .byOpcode → t.redraw = true) ∧
      (s.cfg.redrawMode = .byChange → (t.redraw = true ↔ ∃ x y, pixel s.disp x y = true)) ∧
      KeepsAllBut [.disp, .redraw] s t

/-- R201: DXYN toggles exactly the places of the grid its sprite lights, and VF says whether one of them was set. The
bit order (D6), the origin's wrap (D25), the reading of every row (D20), the fault (D2) and the redraw flag (D18, in
the model's own field, assumption 10) are the spec's decisions; the fault's record (R243) names PC - 2, the a of R88, and
the instruction's word, which is the model's inference (assumption 20). -/
def Obligations.DrawTogglesLitPixels : Prop :=
  ∀ (x y n : Nibble) s, decodeWord (formatR 0xD#4 x y n) = .ok (.drw x y n) ∧
    (dataBase s + n.toNat ≤ 4096 ∨ n = 0 →
      ∃ t, exec (.drw x y n) s = .next t ∧
        (∀ px py, px < 64 → py < 32 →
          pixel t.disp px py = (pixel s.disp px py ^^ drawLights s x y n px py)) ∧
        ((∃ px py, px < 64 ∧ py < 32 ∧ drawLights s x y n px py = true ∧ pixel s.disp px py = true) →
          readV t vf = 1) ∧
        ((∀ px py, px < 64 → py < 32 → drawLights s x y n px py = true → pixel s.disp px py = false) →
          readV t vf = 0) ∧
        (∀ r, r ≠ vf → readV t r = readV s r) ∧
        (s.cfg.redrawMode = .byOpcode → t.redraw = true) ∧
        (s.cfg.redrawMode = .byChange → (t.redraw = true ↔ t.disp ≠ s.disp)) ∧
        KeepsAllBut [.v, .disp, .redraw] s t) ∧
    (4096 < dataBase s + n.toNat → n ≠ 0 →
      exec (.drw x y n) s = .fault (.memOutOfRange (s.pc - 2) (formatR 0xD#4 x y n) (max (dataBase s) 4096)))

/-- R201 (f): drawing the same sprite again at the same origin restores every pixel. The second VF is 1 exactly when a
lit place was off before the first draw: R201 (f) says 'when the sprite has at least one set bit inside the grid',
which its own pseudocode gives only if such a place was off (assumption 25). -/
def Obligations.DrawingTwiceRestores : Prop :=
  ∀ (x y n : Nibble) s t u, exec (.drw x y n) s = .next t → u.disp = t.disp → u.i = s.i →
    readV u x = readV s x → readV u y = readV s y → (∀ a, readByte u a = readByte s a) →
    ∃ r, exec (.drw x y n) u = .next r ∧ r.disp = s.disp ∧
      (readV r vf = 1 ↔ ∃ px py, px < 64 ∧ py < 32 ∧ drawLights s x y n px py = true ∧ pixel s.disp px py = false)

/-- R202: only 00E0 and DXYN write the display; what the host renders is that frame buffer; and no instruction but DXYN
takes anything from it into any other state: two states that differ in the display alone go to states that differ in
the display and, after 00E0 alone, in the redraw flag, which under by_change says whether the display was clear before
(R200 (a), D18). -/
def Obligations.OnlyDisplayInstructionsTouchDisplay : Prop :=
  (∀ i s t, exec i s = .next t → isDisplayInstr i = false → t.disp = s.disp) ∧
    (∀ s, hostRender (some s) = some s.disp) ∧
    ∀ i s d, (∀ x y n, i ≠ .drw x y n) →
      OutcomesAgree
        (fun t u => u = { t with disp := u.disp, redraw := u.redraw } ∧ (u.redraw = t.redraw ∨ i = .cls))
        (exec i s) (exec i { s with disp := d })

/-- R259: what a step's redraw flag says. The two modes are the spec's decision D18; the first two clauses are R259's
guarantees in both. The field that holds the flag is the model's own (assumption 10). -/
def Obligations.RedrawFlagIsTruthful : Prop :=
  ∀ s t i, step s = .next t → fetchDecode s = .ok i →
    (t.disp ≠ s.disp → t.redraw = true) ∧ (isDisplayInstr i = false → t.redraw = false) ∧
    (s.cfg.redrawMode = .byOpcode → t.redraw = isDisplayInstr i) ∧
    (s.cfg.redrawMode = .byChange → (t.redraw = true ↔ t.disp ≠ s.disp))

/-! Keys and timers -/

/-- R222, R224: the delay timer read and set. -/
def Obligations.DelayTimerReadsAndSets : Prop :=
  ∀ (x : Nibble) s,
    (decodeWord (formatI 0xF#4 x 0x07#8) = .ok (.ldVxDt x) ∧ SetsRegister (.ldVxDt x) s x s.dt.toNat) ∧
    (decodeWord (formatI 0xF#4 x 0x15#8) = .ok (.ldDtVx x) ∧
      ∃ t, exec (.ldDtVx x) s = .next t ∧ t.dt = readV s x ∧ KeepsAllBut [.dt] s t)

/-- R223: FX0A goes back to itself while no key is held, and otherwise puts a held key's index in VX. Which one of
several is the spec's decision D16: any of them is taken by some draw (the model's own field
keyPick, assumption 11), and the lowest under KEY_CHOICE = lowest. -/
def Obligations.KeyWaitTakesHeldKey : Prop :=
  ∀ (x : Nibble) s, decodeWord (formatI 0xF#4 x 0x0A#8) = .ok (.ldVxK x) ∧
    ((∀ k, ¬ Held s k) → ∃ t, exec (.ldVxK x) s = .next t ∧ t.pc = s.pc - 2 ∧ KeepsAllBut [.pc] s t) ∧
    ((∃ k, Held s k) → ∃ k, Held s k ∧ SetsRegister (.ldVxK x) s x k.toNat ∧
      (s.cfg.keyChoice = .lowest → ∀ j, Held s j → k.toNat ≤ j.toNat)) ∧
    (s.cfg.keyChoice = .any → ∀ k, Held s k →
      ∃ p, SetsRegister (.ldVxK x) { s with keyPick := p } x k.toNat)

/-- R250: the reconciliation is the loop of its pseudocode, with the strict comparison, run with the call's now at the
end of every step that does not fault. -/
def Obligations.ReconciliationIsTheTickLoop : Prop :=
  (∀ now s, now - s.lastTick > tick →
    reconcileTimers now s =
      reconcileTimers now { s with dt := if s.dt = 0 then 0 else s.dt - 1, lastTick := s.lastTick + tick }) ∧
  (∀ now s, ¬ now - s.lastTick > tick → reconcileTimers now s = s) ∧
  ∀ s t, step s = .next t → ∃ i u, fetchDecode s = .ok i ∧ exec i (beginInstr s) = .next u ∧
    t.dt = (reconcileTimers s.input.now u).dt ∧ t.lastTick = (reconcileTimers s.input.now u).lastTick

/-- R251, R253: the net effect of one reconciliation: DT loses as many ticks as are due and stops at 0, last_tick
advances by whole ticks, and no more than one TICK is left; no smaller number of ticks would do. -/
def Obligations.ReconciliationCatchesUp : Prop :=
  ∀ now s, ∃ k : Nat,
    (reconcileTimers now s).dt.toNat = s.dt.toNat - min s.dt.toNat k ∧
    (reconcileTimers now s).lastTick = s.lastTick + k * tick ∧
    now - (reconcileTimers now s).lastTick ≤ tick ∧
    ∀ j : Nat, j < k → now - (s.lastTick + j * tick) > tick

/-- R8, R250: in every domain of TIME the reconciliation is R250's loop, and a completed step there runs the instruction
at PC with the call's inputs and reconciles DT and last_tick with the call's now. The machine over T and its field
`clock` are the model's own (assumptions 2 and 3). -/
def Obligations.AnyTimeDomainTicksByTheLoop : Prop :=
  ∀ (T : Type) [AddCommGroup T] [LinearOrder T] [IsOrderedAddMonoid T] (time : TimeDomain T),
    (∀ now last dt, now - last > time.tick →
      reconcile time now last dt = reconcile time now (last + time.tick) (if dt = 0 then 0 else dt - 1)) ∧
    (∀ now last dt, ¬ now - last > time.tick → reconcile time now last dt = (dt, last)) ∧
    ∀ inp s t, stepIn time inp s = .next t → ∃ i u, fetchDecode s.block = .ok i ∧
      exec i (beginInstr (untimed s.block inp.held inp.rnd)) = .next u ∧
      (t.block.dt, t.lastTick) = reconcile time inp.now s.lastTick u.dt ∧ t.clock = inp.now ∧
      t.block.v = u.v ∧ t.block.i = u.i ∧ t.block.pc = u.pc ∧ t.block.stack = u.stack ∧ t.block.st = u.st ∧
      t.block.mem = u.mem ∧ t.block.disp = u.disp ∧ t.block.redraw = u.redraw ∧ t.block.fault = u.fault ∧
      t.block.cfg = u.cfg

/-- R8, R29: the machine of `step` is the machine over R8's default TIME, exact rational seconds (D27): loads, steps and
the results of Step calls agree, because no instruction reads or writes an instant (the machine over T is the model's
own, assumption 3). -/
def Obligations.DefaultTimeIsRationalSeconds : Prop :=
  (∀ cfg p t0,
    match load cfg p t0, loadIn cfg p t0 with
    | .ok s, .ok u => u.lastTick = s.lastTick ∧ u.clock = s.clock ∧
        s = { u.block with lastTick := s.lastTick, clock := s.clock, input := s.input }
    | .error e, .error f => e = f
    | _, _ => False) ∧
  (∀ (s : State) (inp : StepInput),
    match step { s with input := inp }, stepIn TimeDomain.standard inp.timed s.timed with
    | .next t, .next u => u.lastTick = t.lastTick ∧ u.clock = t.clock ∧
        t = { u.block with lastTick := t.lastTick, clock := t.clock, input := t.input }
    | .fault r, .fault q => r = q
    | .refused r, .refused q => r = q
    | _, _ => False) ∧
  ∀ (s : State) (inp : StepInput), (stepMachineIn TimeDomain.standard s.timed inp.timed).2 = (stepMachine s inp).2

/-- R252: the sound timer is never decremented: a step changes ST only by executing FX18, and a load sets it to 0. -/
def Obligations.SoundTimerNeverCounts : Prop :=
  (∀ s t, step s = .next t → t.st ≠ s.st → ∃ x, fetchDecode s = .ok (.ldStVx x) ∧ t.st = readV s x) ∧
    (∀ now s, (reconcileTimers now s).st = s.st) ∧ ∀ cfg p t0 s, load cfg p t0 = .ok s → s.st = 0

/-- R225: FX18 sets ST to VX; and no instruction reads ST: two machines that differ in ST alone step alike, and go on
differing in ST alone. -/
def Obligations.SoundTimerIsWriteOnly : Prop :=
  (∀ (x : Nibble) s, decodeWord (formatI 0xF#4 x 0x18#8) = .ok (.ldStVx x) ∧
    ∃ t, exec (.ldStVx x) s = .next t ∧ t.st = readV s x ∧ KeepsAllBut [.st] s t) ∧
  ∀ s b, OutcomesAgree (fun t u => u = { t with st := u.st }) (step s) (step { s with st := b })

/-- R254, R256: the held keys reach only EX9E, EXA1 and FX0A, and the random byte only CXNN. -/
def Obligations.InputsReachOnlyTheirInstructions : Prop :=
  (∀ i s h, isKeyInstr i = false →
    OutcomesAgree (fun t u => u = { t with input := { t.input with held := h } }) (exec i s)
      (exec i { s with input := { s.input with held := h } })) ∧
  ∀ i s b, (∀ x nn, i ≠ .rnd x nn) →
    OutcomesAgree (fun t u => u = { t with input := { t.input with rnd := b } }) (exec i s)
      (exec i { s with input := { s.input with rnd := b } })

/-- R26: only 2NNN and 00EE write the call stack, and no other instruction reads it. -/
def Obligations.OnlyCallAndReturnUseStack : Prop :=
  ∀ i s l, (∀ nnn, i ≠ .call nnn) → i ≠ .ret →
    OutcomesAgree (fun t u => t.stack = s.stack ∧ u = { t with stack := l }) (exec i s) (exec i { s with stack := l })

/-! Faults, invariants, the host interface -/

/-- R249: one mode, every instruction available at all times: no instruction and no step is refused, in any state. -/
def Obligations.NothingIsRefused : Prop :=
  ∀ i s q, exec i s ≠ .refused q ∧ step s ≠ .refused q

/-- R241-R243, R246: a running machine's step faults only for the causes listed, and the record names the address and
the word of the faulting instruction (assumption 20). The causes 3-6 are the spec's decisions D2, D4, D14, D15. -/
def Obligations.FaultsAreThoseListed : Prop :=
  ∀ s r, Running s → step s = .fault r →
    match r with
    | .decodeError a w => a = s.pc ∧ fetch s = .ok w ∧ illegalClass w ≠ none
    | .fetchOutOfRange a => a = s.pc ∧ s.pc.toNat + 1 > 0xFFF
    | .memOutOfRange a w d => a = s.pc ∧ fetch s = .ok w ∧ d > 0xFFF ∧
        ((∃ x y n, decodeWord w = .ok (.drw x y n)) ∨
          ∃ x, decodeWord w = .ok (.ldBVx x) ∨ decodeWord w = .ok (.ldMemVx x) ∨ decodeWord w = .ok (.ldVxMem x))
    | .stackUnderflow a w => a = s.pc ∧ fetch s = .ok w ∧ w = 0x00EE ∧ s.stack = []
    | .stackOverflow a w => a = s.pc ∧ fetch s = .ok w ∧ s.cfg.stackLimit = some s.stack.length ∧
        ∃ nnn, decodeWord w = .ok (.call nnn)
    | .fontWrite a w d => a = s.pc ∧ fetch s = .ok w ∧ d ≤ 0x04F ∧ s.cfg.fontProtect = .fault ∧
        ∃ x, decodeWord w = .ok (.ldBVx x) ∨ decodeWord w = .ok (.ldMemVx x)

/-- R245: a machine whose fault is set takes no step; a Step call gives the same record back and changes nothing; it is
never parked; only a load makes a fresh machine. -/
def Obligations.FaultedMachineTakesNoStep : Prop :=
  ∀ s r, s.fault = some r →
    step s = .fault r ∧ (∀ inp, hostStep (some s) inp = (some s, .fault r)) ∧ (∀ p, ¬ ParkedAt p s) ∧
    ∀ cfg p t0 t, (hostLoad (some s) cfg p t0).1 = some t → Running t

/-- R244: a Step call that faults leaves every field as it was, sets the record and returns it. That the step is
discarded is the spec's decision D19; that the record names PC for an instruction's own fault rests on assumption 20. -/
def Obligations.FaultDiscardsTheStep : Prop :=
  ∀ s inp r, Running s → s.clock ≤ inp.now → step { s with input := inp } = .fault r →
    hostStep (some s) inp = (some { s with fault := some r }, .fault r) ∧ r.addr = s.pc

/-- R258: a Step call on a running machine, with a clock that has not gone back, is one step with the call's arguments,
and returns its redraw flag; a clock that has gone back (U17) and a box without a machine (R281, D28) are refused.
`clock`, the note of the last instant, is the model's own field (assumptions 1 and 2). -/
def Obligations.StepCallRunsOneStep : Prop :=
  (∀ s inp t, Running s → s.clock ≤ inp.now → step { s with input := inp } = .next t →
    hostStep (some s) inp = (some t, .ok t.redraw) ∧ t.clock = inp.now) ∧
  (∀ s inp, Running s → inp.now < s.clock → hostStep (some s) inp = (some s, .refused .clockWentBack)) ∧
  ∀ inp, hostStep none inp = (none, .refused .noMachine)

/-- R281: which programs are rejected, and that no machine results. The strict 'exceeding' and the codes are the spec's
decisions D29 and D23. -/
def Obligations.LoadRejectsBySize : Prop :=
  ∀ cfg p t0 box,
    (load cfg p t0 = .error .emptyProgram ↔ p.length = 0) ∧
    (load cfg p t0 = .error .programTooLarge ↔ 3584 < p.length) ∧
    ((∃ s, load cfg p t0 = .ok s) ↔ 1 ≤ p.length ∧ p.length ≤ 3584) ∧
    (∀ e, load cfg p t0 = .error e → hostLoad box cfg p t0 = (none, some e)) ∧
    (∀ s, load cfg p t0 = .ok s → hostLoad box cfg p t0 = (some s, none))

/-- R31, R280: the state after a load. That unnamed memory is 0, the display clear and last_tick the load's instant are
the spec's decisions D7, D8, D9; `clock` is the model's own field (assumption 2). -/
def Obligations.LoadedStateIsFresh : Prop :=
  ∀ cfg p t0 s, load cfg p t0 = .ok s →
    (∀ r, readV s r = 0) ∧ s.i = 0 ∧ s.pc = 0x200 ∧ s.stack = [] ∧ s.dt = 0 ∧ s.st = 0 ∧
    (∀ a (h : a < 80), readByte s a = cfg.font[a]) ∧
    (∀ j (h : j < p.length), readByte s (0x200 + j) = p[j]) ∧
    (∀ a, 80 ≤ a → a < 0x200 ∨ 0x200 + p.length ≤ a → readByte s a = 0) ∧
    (∀ x y, pixel s.disp x y = false) ∧ s.lastTick = t0 ∧ s.fault = none ∧ s.cfg = cfg ∧ s.clock = t0

/-- The model's reset state is the state a load of the one byte 0 at instant 0 leaves, under the default parameters
(the model's choice, assumptions 2 and 21). -/
def Obligations.ResetIsALoadedState : Prop :=
  load Config.standard [0x00] 0 = .ok State.reset

/-- The invariant holds at reset (its instant 0 is the model's choice, assumption 2). -/
def Obligations.ResetMeetsInvariant : Prop :=
  MachineInv State.reset

/-- The invariant holds after every load, whatever the parameters. Its clauses on `clock` and `input.now` (R258) are about
the model's own fields (assumptions 1 and 2). -/
def Obligations.LoadMeetsInvariant : Prop :=
  ∀ cfg p t0 s, load cfg p t0 = .ok s → MachineInv s

/-- Every step keeps the invariant: canonical memory, the protected font intact (R60), I, PC, return addresses and stack
depth in range (R23, R25, R26), the clock never back (R258, the model's own field,
assumptions 1 and 2), the timer block caught up (R251). -/
def Obligations.StepKeepsInvariant : Prop :=
  ∀ s t, MachineInv s → step s = .next t → MachineInv t

/-- R8, R30, R258: a completed step leaves the parameters alone and no fault set, notes the call's instant, and takes the
next call's arguments no earlier (the model's own fields, assumptions 1 and 4). -/
def Obligations.StepKeepsParameters : Prop :=
  ∀ s t, step s = .next t → t.cfg = s.cfg ∧ t.fault = none ∧ t.clock = s.input.now ∧ t.clock ≤ t.input.now

/-- R263: a parked machine stays parked: its step completes, leaves V, I, PC, Stack, ST, Mem and Disp unchanged and
returns redraw = false. The parked state is the spec's decision D26. -/
def Obligations.ParkedStaysParked : Prop :=
  ∀ p s, ParkedAt p s → ∃ t, StepsTo s t ∧ ParkedAt p t ∧ t.redraw = false ∧
    (∀ r, readV t r = readV s r) ∧ t.i = s.i ∧ t.pc = s.pc ∧ t.stack = s.stack ∧ t.st = s.st ∧
    (∀ a, readByte t a = readByte s a) ∧ t.disp = s.disp
end

