-- ==== Sys2Proof/Laws/State.lean ====
section
/-! SUPPORT. One lemma per field per update: what each named operation does to each field of the state. -/

namespace Sys2Proof.Machine

/-! Fields after `writeV` -/

@[simp] theorem writeV_v (s : State) (x : Nibble) (b : Byte) : (writeV s x b).v = s.v.set x.toNat b x.isLt := rfl
@[simp] theorem writeV_i (s : State) (x : Nibble) (b : Byte) : (writeV s x b).i = s.i := rfl
@[simp] theorem writeV_pc (s : State) (x : Nibble) (b : Byte) : (writeV s x b).pc = s.pc := rfl
@[simp] theorem writeV_stack (s : State) (x : Nibble) (b : Byte) : (writeV s x b).stack = s.stack := rfl
@[simp] theorem writeV_dt (s : State) (x : Nibble) (b : Byte) : (writeV s x b).dt = s.dt := rfl
@[simp] theorem writeV_st (s : State) (x : Nibble) (b : Byte) : (writeV s x b).st = s.st := rfl
@[simp] theorem writeV_mem (s : State) (x : Nibble) (b : Byte) : (writeV s x b).mem = s.mem := rfl
@[simp] theorem writeV_disp (s : State) (x : Nibble) (b : Byte) : (writeV s x b).disp = s.disp := rfl
@[simp] theorem writeV_lastTick (s : State) (x : Nibble) (b : Byte) : (writeV s x b).lastTick = s.lastTick := rfl
@[simp] theorem writeV_fault (s : State) (x : Nibble) (b : Byte) : (writeV s x b).fault = s.fault := rfl
@[simp] theorem writeV_cfg (s : State) (x : Nibble) (b : Byte) : (writeV s x b).cfg = s.cfg := rfl
@[simp] theorem writeV_input (s : State) (x : Nibble) (b : Byte) : (writeV s x b).input = s.input := rfl
@[simp] theorem writeV_keyPick (s : State) (x : Nibble) (b : Byte) : (writeV s x b).keyPick = s.keyPick := rfl
@[simp] theorem writeV_clock (s : State) (x : Nibble) (b : Byte) : (writeV s x b).clock = s.clock := rfl
@[simp] theorem writeV_redraw (s : State) (x : Nibble) (b : Byte) : (writeV s x b).redraw = s.redraw := rfl
@[simp] theorem writeV_draws (s : State) (x : Nibble) (b : Byte) : (writeV s x b).draws = s.draws := rfl

/-! Fields after `writeResultAndFlag` -/

@[simp] theorem writeResultAndFlag_i (s : State) (x : Nibble) (b f : Byte) : (writeResultAndFlag s x b f).i = s.i := rfl
@[simp] theorem writeResultAndFlag_pc (s : State) (x : Nibble) (b f : Byte) : (writeResultAndFlag s x b f).pc = s.pc := rfl
@[simp] theorem writeResultAndFlag_stack (s : State) (x : Nibble) (b f : Byte) : (writeResultAndFlag s x b f).stack = s.stack := rfl
@[simp] theorem writeResultAndFlag_dt (s : State) (x : Nibble) (b f : Byte) : (writeResultAndFlag s x b f).dt = s.dt := rfl
@[simp] theorem writeResultAndFlag_st (s : State) (x : Nibble) (b f : Byte) : (writeResultAndFlag s x b f).st = s.st := rfl
@[simp] theorem writeResultAndFlag_mem (s : State) (x : Nibble) (b f : Byte) : (writeResultAndFlag s x b f).mem = s.mem := rfl
@[simp] theorem writeResultAndFlag_disp (s : State) (x : Nibble) (b f : Byte) : (writeResultAndFlag s x b f).disp = s.disp := rfl
@[simp] theorem writeResultAndFlag_lastTick (s : State) (x : Nibble) (b f : Byte) : (writeResultAndFlag s x b f).lastTick = s.lastTick := rfl
@[simp] theorem writeResultAndFlag_fault (s : State) (x : Nibble) (b f : Byte) : (writeResultAndFlag s x b f).fault = s.fault := rfl
@[simp] theorem writeResultAndFlag_cfg (s : State) (x : Nibble) (b f : Byte) : (writeResultAndFlag s x b f).cfg = s.cfg := rfl
@[simp] theorem writeResultAndFlag_input (s : State) (x : Nibble) (b f : Byte) : (writeResultAndFlag s x b f).input = s.input := rfl
@[simp] theorem writeResultAndFlag_keyPick (s : State) (x : Nibble) (b f : Byte) : (writeResultAndFlag s x b f).keyPick = s.keyPick := rfl
@[simp] theorem writeResultAndFlag_clock (s : State) (x : Nibble) (b f : Byte) : (writeResultAndFlag s x b f).clock = s.clock := rfl
@[simp] theorem writeResultAndFlag_redraw (s : State) (x : Nibble) (b f : Byte) : (writeResultAndFlag s x b f).redraw = s.redraw := rfl
@[simp] theorem writeResultAndFlag_draws (s : State) (x : Nibble) (b f : Byte) : (writeResultAndFlag s x b f).draws = s.draws := rfl

/-! Fields after `writeRegsFromV0` -/

@[simp] theorem writeRegsFromV0_i (s : State) (bs : List Byte) : (writeRegsFromV0 s bs).i = s.i := rfl
@[simp] theorem writeRegsFromV0_pc (s : State) (bs : List Byte) : (writeRegsFromV0 s bs).pc = s.pc := rfl
@[simp] theorem writeRegsFromV0_stack (s : State) (bs : List Byte) : (writeRegsFromV0 s bs).stack = s.stack := rfl
@[simp] theorem writeRegsFromV0_dt (s : State) (bs : List Byte) : (writeRegsFromV0 s bs).dt = s.dt := rfl
@[simp] theorem writeRegsFromV0_st (s : State) (bs : List Byte) : (writeRegsFromV0 s bs).st = s.st := rfl
@[simp] theorem writeRegsFromV0_mem (s : State) (bs : List Byte) : (writeRegsFromV0 s bs).mem = s.mem := rfl
@[simp] theorem writeRegsFromV0_disp (s : State) (bs : List Byte) : (writeRegsFromV0 s bs).disp = s.disp := rfl
@[simp] theorem writeRegsFromV0_lastTick (s : State) (bs : List Byte) : (writeRegsFromV0 s bs).lastTick = s.lastTick := rfl
@[simp] theorem writeRegsFromV0_fault (s : State) (bs : List Byte) : (writeRegsFromV0 s bs).fault = s.fault := rfl
@[simp] theorem writeRegsFromV0_cfg (s : State) (bs : List Byte) : (writeRegsFromV0 s bs).cfg = s.cfg := rfl
@[simp] theorem writeRegsFromV0_input (s : State) (bs : List Byte) : (writeRegsFromV0 s bs).input = s.input := rfl
@[simp] theorem writeRegsFromV0_keyPick (s : State) (bs : List Byte) : (writeRegsFromV0 s bs).keyPick = s.keyPick := rfl
@[simp] theorem writeRegsFromV0_clock (s : State) (bs : List Byte) : (writeRegsFromV0 s bs).clock = s.clock := rfl
@[simp] theorem writeRegsFromV0_redraw (s : State) (bs : List Byte) : (writeRegsFromV0 s bs).redraw = s.redraw := rfl
@[simp] theorem writeRegsFromV0_draws (s : State) (bs : List Byte) : (writeRegsFromV0 s bs).draws = s.draws := rfl

/-! Fields after `writeByte` -/

@[simp] theorem writeByte_v (s : State) (a : Nat) (b : Byte) : (writeByte s a b).v = s.v := rfl
@[simp] theorem writeByte_i (s : State) (a : Nat) (b : Byte) : (writeByte s a b).i = s.i := rfl
@[simp] theorem writeByte_pc (s : State) (a : Nat) (b : Byte) : (writeByte s a b).pc = s.pc := rfl
@[simp] theorem writeByte_stack (s : State) (a : Nat) (b : Byte) : (writeByte s a b).stack = s.stack := rfl
@[simp] theorem writeByte_dt (s : State) (a : Nat) (b : Byte) : (writeByte s a b).dt = s.dt := rfl
@[simp] theorem writeByte_st (s : State) (a : Nat) (b : Byte) : (writeByte s a b).st = s.st := rfl
@[simp] theorem writeByte_mem (s : State) (a : Nat) (b : Byte) : (writeByte s a b).mem = Memory.write s.cfg.font s.mem a b := rfl
@[simp] theorem writeByte_disp (s : State) (a : Nat) (b : Byte) : (writeByte s a b).disp = s.disp := rfl
@[simp] theorem writeByte_lastTick (s : State) (a : Nat) (b : Byte) : (writeByte s a b).lastTick = s.lastTick := rfl
@[simp] theorem writeByte_fault (s : State) (a : Nat) (b : Byte) : (writeByte s a b).fault = s.fault := rfl
@[simp] theorem writeByte_cfg (s : State) (a : Nat) (b : Byte) : (writeByte s a b).cfg = s.cfg := rfl
@[simp] theorem writeByte_input (s : State) (a : Nat) (b : Byte) : (writeByte s a b).input = s.input := rfl
@[simp] theorem writeByte_keyPick (s : State) (a : Nat) (b : Byte) : (writeByte s a b).keyPick = s.keyPick := rfl
@[simp] theorem writeByte_clock (s : State) (a : Nat) (b : Byte) : (writeByte s a b).clock = s.clock := rfl
@[simp] theorem writeByte_redraw (s : State) (a : Nat) (b : Byte) : (writeByte s a b).redraw = s.redraw := rfl
@[simp] theorem writeByte_draws (s : State) (a : Nat) (b : Byte) : (writeByte s a b).draws = s.draws := rfl

/-! Fields after `skipIf` -/

@[simp] theorem skipIf_v (s : State) (c : Bool) : (skipIf s c).v = s.v := by cases c <;> rfl
@[simp] theorem skipIf_i (s : State) (c : Bool) : (skipIf s c).i = s.i := by cases c <;> rfl
@[simp] theorem skipIf_pc (s : State) (c : Bool) : (skipIf s c).pc = if c then s.pc + 2 else s.pc := by cases c <;> rfl
@[simp] theorem skipIf_stack (s : State) (c : Bool) : (skipIf s c).stack = s.stack := by cases c <;> rfl
@[simp] theorem skipIf_dt (s : State) (c : Bool) : (skipIf s c).dt = s.dt := by cases c <;> rfl
@[simp] theorem skipIf_st (s : State) (c : Bool) : (skipIf s c).st = s.st := by cases c <;> rfl
@[simp] theorem skipIf_mem (s : State) (c : Bool) : (skipIf s c).mem = s.mem := by cases c <;> rfl
@[simp] theorem skipIf_disp (s : State) (c : Bool) : (skipIf s c).disp = s.disp := by cases c <;> rfl
@[simp] theorem skipIf_lastTick (s : State) (c : Bool) : (skipIf s c).lastTick = s.lastTick := by cases c <;> rfl
@[simp] theorem skipIf_fault (s : State) (c : Bool) : (skipIf s c).fault = s.fault := by cases c <;> rfl
@[simp] theorem skipIf_cfg (s : State) (c : Bool) : (skipIf s c).cfg = s.cfg := by cases c <;> rfl
@[simp] theorem skipIf_input (s : State) (c : Bool) : (skipIf s c).input = s.input := by cases c <;> rfl
@[simp] theorem skipIf_keyPick (s : State) (c : Bool) : (skipIf s c).keyPick = s.keyPick := by cases c <;> rfl
@[simp] theorem skipIf_clock (s : State) (c : Bool) : (skipIf s c).clock = s.clock := by cases c <;> rfl
@[simp] theorem skipIf_redraw (s : State) (c : Bool) : (skipIf s c).redraw = s.redraw := by cases c <;> rfl
@[simp] theorem skipIf_draws (s : State) (c : Bool) : (skipIf s c).draws = s.draws := by cases c <;> rfl

/-! Fields after `advanceI` -/

@[simp] theorem advanceI_v (s : State) (x : Nibble) : (advanceI s x).v = s.v := by unfold advanceI; split <;> rfl
@[simp] theorem advanceI_pc (s : State) (x : Nibble) : (advanceI s x).pc = s.pc := by unfold advanceI; split <;> rfl
@[simp] theorem advanceI_stack (s : State) (x : Nibble) : (advanceI s x).stack = s.stack := by unfold advanceI; split <;> rfl
@[simp] theorem advanceI_dt (s : State) (x : Nibble) : (advanceI s x).dt = s.dt := by unfold advanceI; split <;> rfl
@[simp] theorem advanceI_st (s : State) (x : Nibble) : (advanceI s x).st = s.st := by unfold advanceI; split <;> rfl
@[simp] theorem advanceI_mem (s : State) (x : Nibble) : (advanceI s x).mem = s.mem := by unfold advanceI; split <;> rfl
@[simp] theorem advanceI_disp (s : State) (x : Nibble) : (advanceI s x).disp = s.disp := by unfold advanceI; split <;> rfl
@[simp] theorem advanceI_lastTick (s : State) (x : Nibble) : (advanceI s x).lastTick = s.lastTick := by unfold advanceI; split <;> rfl
@[simp] theorem advanceI_fault (s : State) (x : Nibble) : (advanceI s x).fault = s.fault := by unfold advanceI; split <;> rfl
@[simp] theorem advanceI_cfg (s : State) (x : Nibble) : (advanceI s x).cfg = s.cfg := by unfold advanceI; split <;> rfl
@[simp] theorem advanceI_input (s : State) (x : Nibble) : (advanceI s x).input = s.input := by unfold advanceI; split <;> rfl
@[simp] theorem advanceI_keyPick (s : State) (x : Nibble) : (advanceI s x).keyPick = s.keyPick := by unfold advanceI; split <;> rfl
@[simp] theorem advanceI_clock (s : State) (x : Nibble) : (advanceI s x).clock = s.clock := by unfold advanceI; split <;> rfl
@[simp] theorem advanceI_redraw (s : State) (x : Nibble) : (advanceI s x).redraw = s.redraw := by unfold advanceI; split <;> rfl
@[simp] theorem advanceI_draws (s : State) (x : Nibble) : (advanceI s x).draws = s.draws := by unfold advanceI; split <;> rfl

/-! Fields after `showDisp` -/

@[simp] theorem showDisp_v (s : State) (d : Disp) : (showDisp s d).v = s.v := rfl
@[simp] theorem showDisp_i (s : State) (d : Disp) : (showDisp s d).i = s.i := rfl
@[simp] theorem showDisp_pc (s : State) (d : Disp) : (showDisp s d).pc = s.pc := rfl
@[simp] theorem showDisp_stack (s : State) (d : Disp) : (showDisp s d).stack = s.stack := rfl
@[simp] theorem showDisp_dt (s : State) (d : Disp) : (showDisp s d).dt = s.dt := rfl
@[simp] theorem showDisp_st (s : State) (d : Disp) : (showDisp s d).st = s.st := rfl
@[simp] theorem showDisp_mem (s : State) (d : Disp) : (showDisp s d).mem = s.mem := rfl
@[simp] theorem showDisp_disp (s : State) (d : Disp) : (showDisp s d).disp = d := rfl
@[simp] theorem showDisp_lastTick (s : State) (d : Disp) : (showDisp s d).lastTick = s.lastTick := rfl
@[simp] theorem showDisp_fault (s : State) (d : Disp) : (showDisp s d).fault = s.fault := rfl
@[simp] theorem showDisp_cfg (s : State) (d : Disp) : (showDisp s d).cfg = s.cfg := rfl
@[simp] theorem showDisp_input (s : State) (d : Disp) : (showDisp s d).input = s.input := rfl
@[simp] theorem showDisp_keyPick (s : State) (d : Disp) : (showDisp s d).keyPick = s.keyPick := rfl
@[simp] theorem showDisp_clock (s : State) (d : Disp) : (showDisp s d).clock = s.clock := rfl
@[simp] theorem showDisp_draws (s : State) (d : Disp) : (showDisp s d).draws = s.draws := rfl

/-! Fields after `drawSprite` -/

@[simp] theorem drawSprite_i (s : State) (x y : Nibble) (rows : List Byte) : (drawSprite s x y rows).i = s.i := rfl
@[simp] theorem drawSprite_pc (s : State) (x y : Nibble) (rows : List Byte) : (drawSprite s x y rows).pc = s.pc := rfl
@[simp] theorem drawSprite_stack (s : State) (x y : Nibble) (rows : List Byte) : (drawSprite s x y rows).stack = s.stack := rfl
@[simp] theorem drawSprite_dt (s : State) (x y : Nibble) (rows : List Byte) : (drawSprite s x y rows).dt = s.dt := rfl
@[simp] theorem drawSprite_st (s : State) (x y : Nibble) (rows : List Byte) : (drawSprite s x y rows).st = s.st := rfl
@[simp] theorem drawSprite_mem (s : State) (x y : Nibble) (rows : List Byte) : (drawSprite s x y rows).mem = s.mem := rfl
@[simp] theorem drawSprite_lastTick (s : State) (x y : Nibble) (rows : List Byte) : (drawSprite s x y rows).lastTick = s.lastTick := rfl
@[simp] theorem drawSprite_fault (s : State) (x y : Nibble) (rows : List Byte) : (drawSprite s x y rows).fault = s.fault := rfl
@[simp] theorem drawSprite_cfg (s : State) (x y : Nibble) (rows : List Byte) : (drawSprite s x y rows).cfg = s.cfg := rfl
@[simp] theorem drawSprite_input (s : State) (x y : Nibble) (rows : List Byte) : (drawSprite s x y rows).input = s.input := rfl
@[simp] theorem drawSprite_keyPick (s : State) (x y : Nibble) (rows : List Byte) : (drawSprite s x y rows).keyPick = s.keyPick := rfl
@[simp] theorem drawSprite_clock (s : State) (x y : Nibble) (rows : List Byte) : (drawSprite s x y rows).clock = s.clock := rfl
@[simp] theorem drawSprite_draws (s : State) (x y : Nibble) (rows : List Byte) : (drawSprite s x y rows).draws = s.draws := rfl

/-! Fields after `faulted` -/

@[simp] theorem faulted_v (s : State) (r : Fault) : (faulted s r).v = s.v := rfl
@[simp] theorem faulted_i (s : State) (r : Fault) : (faulted s r).i = s.i := rfl
@[simp] theorem faulted_pc (s : State) (r : Fault) : (faulted s r).pc = s.pc := rfl
@[simp] theorem faulted_stack (s : State) (r : Fault) : (faulted s r).stack = s.stack := rfl
@[simp] theorem faulted_dt (s : State) (r : Fault) : (faulted s r).dt = s.dt := rfl
@[simp] theorem faulted_st (s : State) (r : Fault) : (faulted s r).st = s.st := rfl
@[simp] theorem faulted_mem (s : State) (r : Fault) : (faulted s r).mem = s.mem := rfl
@[simp] theorem faulted_disp (s : State) (r : Fault) : (faulted s r).disp = s.disp := rfl
@[simp] theorem faulted_lastTick (s : State) (r : Fault) : (faulted s r).lastTick = s.lastTick := rfl
@[simp] theorem faulted_fault (s : State) (r : Fault) : (faulted s r).fault = some r := rfl
@[simp] theorem faulted_cfg (s : State) (r : Fault) : (faulted s r).cfg = s.cfg := rfl
@[simp] theorem faulted_input (s : State) (r : Fault) : (faulted s r).input = s.input := rfl
@[simp] theorem faulted_keyPick (s : State) (r : Fault) : (faulted s r).keyPick = s.keyPick := rfl
@[simp] theorem faulted_clock (s : State) (r : Fault) : (faulted s r).clock = s.clock := rfl
@[simp] theorem faulted_redraw (s : State) (r : Fault) : (faulted s r).redraw = s.redraw := rfl
@[simp] theorem faulted_draws (s : State) (r : Fault) : (faulted s r).draws = s.draws := rfl

/-! Fields after `beginInstr` -/

@[simp] theorem beginInstr_v (s : State) : (beginInstr s).v = s.v := rfl
@[simp] theorem beginInstr_i (s : State) : (beginInstr s).i = s.i := rfl
@[simp] theorem beginInstr_pc (s : State) : (beginInstr s).pc = s.pc + 2 := rfl
@[simp] theorem beginInstr_stack (s : State) : (beginInstr s).stack = s.stack := rfl
@[simp] theorem beginInstr_dt (s : State) : (beginInstr s).dt = s.dt := rfl
@[simp] theorem beginInstr_st (s : State) : (beginInstr s).st = s.st := rfl
@[simp] theorem beginInstr_mem (s : State) : (beginInstr s).mem = s.mem := rfl
@[simp] theorem beginInstr_disp (s : State) : (beginInstr s).disp = s.disp := rfl
@[simp] theorem beginInstr_lastTick (s : State) : (beginInstr s).lastTick = s.lastTick := rfl
@[simp] theorem beginInstr_fault (s : State) : (beginInstr s).fault = s.fault := rfl
@[simp] theorem beginInstr_cfg (s : State) : (beginInstr s).cfg = s.cfg := rfl
@[simp] theorem beginInstr_input (s : State) : (beginInstr s).input = s.input := rfl
@[simp] theorem beginInstr_keyPick (s : State) : (beginInstr s).keyPick = s.keyPick := rfl
@[simp] theorem beginInstr_clock (s : State) : (beginInstr s).clock = s.clock := rfl
@[simp] theorem beginInstr_redraw (s : State) : (beginInstr s).redraw = false := rfl
@[simp] theorem beginInstr_draws (s : State) : (beginInstr s).draws = s.draws := rfl

/-! Fields after `reconcileTimers` -/

@[simp] theorem reconcileTimers_v (now : Rat) (s : State) : (reconcileTimers now s).v = s.v := rfl
@[simp] theorem reconcileTimers_i (now : Rat) (s : State) : (reconcileTimers now s).i = s.i := rfl
@[simp] theorem reconcileTimers_pc (now : Rat) (s : State) : (reconcileTimers now s).pc = s.pc := rfl
@[simp] theorem reconcileTimers_stack (now : Rat) (s : State) : (reconcileTimers now s).stack = s.stack := rfl
@[simp] theorem reconcileTimers_dt (now : Rat) (s : State) : (reconcileTimers now s).dt = countDown s.dt (ticksDue now s.lastTick) := rfl
@[simp] theorem reconcileTimers_st (now : Rat) (s : State) : (reconcileTimers now s).st = s.st := rfl
@[simp] theorem reconcileTimers_mem (now : Rat) (s : State) : (reconcileTimers now s).mem = s.mem := rfl
@[simp] theorem reconcileTimers_disp (now : Rat) (s : State) : (reconcileTimers now s).disp = s.disp := rfl
@[simp] theorem reconcileTimers_lastTick (now : Rat) (s : State) : (reconcileTimers now s).lastTick = s.lastTick + ticksDue now s.lastTick * tick :=
  congrArg (s.lastTick + ·) (nsmul_eq_mul _ _)
@[simp] theorem reconcileTimers_fault (now : Rat) (s : State) : (reconcileTimers now s).fault = s.fault := rfl
@[simp] theorem reconcileTimers_cfg (now : Rat) (s : State) : (reconcileTimers now s).cfg = s.cfg := rfl
@[simp] theorem reconcileTimers_input (now : Rat) (s : State) : (reconcileTimers now s).input = s.input := rfl
@[simp] theorem reconcileTimers_keyPick (now : Rat) (s : State) : (reconcileTimers now s).keyPick = s.keyPick := rfl
@[simp] theorem reconcileTimers_clock (now : Rat) (s : State) : (reconcileTimers now s).clock = s.clock := rfl
@[simp] theorem reconcileTimers_redraw (now : Rat) (s : State) : (reconcileTimers now s).redraw = s.redraw := rfl
@[simp] theorem reconcileTimers_draws (now : Rat) (s : State) : (reconcileTimers now s).draws = s.draws := rfl

/-! Fields after `drawInput` -/

@[simp] theorem drawInput_v (s : State) : (drawInput s).v = s.v := rfl
@[simp] theorem drawInput_i (s : State) : (drawInput s).i = s.i := rfl
@[simp] theorem drawInput_pc (s : State) : (drawInput s).pc = s.pc := rfl
@[simp] theorem drawInput_stack (s : State) : (drawInput s).stack = s.stack := rfl
@[simp] theorem drawInput_dt (s : State) : (drawInput s).dt = s.dt := rfl
@[simp] theorem drawInput_st (s : State) : (drawInput s).st = s.st := rfl
@[simp] theorem drawInput_mem (s : State) : (drawInput s).mem = s.mem := rfl
@[simp] theorem drawInput_disp (s : State) : (drawInput s).disp = s.disp := rfl
@[simp] theorem drawInput_lastTick (s : State) : (drawInput s).lastTick = s.lastTick := rfl
@[simp] theorem drawInput_fault (s : State) : (drawInput s).fault = s.fault := rfl
@[simp] theorem drawInput_cfg (s : State) : (drawInput s).cfg = s.cfg := rfl
@[simp] theorem drawInput_keyPick (s : State) : (drawInput s).keyPick = Config.freePick s.draws := rfl
@[simp] theorem drawInput_clock (s : State) : (drawInput s).clock = s.clock := rfl
@[simp] theorem drawInput_redraw (s : State) : (drawInput s).redraw = s.redraw := rfl
@[simp] theorem drawInput_draws (s : State) : (drawInput s).draws = s.draws + 1 := rfl

/-! Fields after `endStep` -/

@[simp] theorem endStep_v (s : State) : (endStep s).v = s.v := rfl
@[simp] theorem endStep_i (s : State) : (endStep s).i = s.i := rfl
@[simp] theorem endStep_pc (s : State) : (endStep s).pc = s.pc := rfl
@[simp] theorem endStep_stack (s : State) : (endStep s).stack = s.stack := rfl
@[simp] theorem endStep_dt (s : State) : (endStep s).dt = countDown s.dt (ticksDue s.input.now s.lastTick) := rfl
@[simp] theorem endStep_st (s : State) : (endStep s).st = s.st := rfl
@[simp] theorem endStep_mem (s : State) : (endStep s).mem = s.mem := rfl
@[simp] theorem endStep_disp (s : State) : (endStep s).disp = s.disp := rfl
@[simp] theorem endStep_lastTick (s : State) : (endStep s).lastTick = s.lastTick + ticksDue s.input.now s.lastTick * tick :=
  congrArg (s.lastTick + ·) (nsmul_eq_mul _ _)
@[simp] theorem endStep_fault (s : State) : (endStep s).fault = s.fault := rfl
@[simp] theorem endStep_cfg (s : State) : (endStep s).cfg = s.cfg := rfl
@[simp] theorem endStep_keyPick (s : State) : (endStep s).keyPick = Config.freePick s.draws := rfl
@[simp] theorem endStep_clock (s : State) : (endStep s).clock = s.input.now := rfl
@[simp] theorem endStep_redraw (s : State) : (endStep s).redraw = s.redraw := rfl
@[simp] theorem endStep_draws (s : State) : (endStep s).draws = s.draws + 1 := rfl

@[simp] theorem drawInput_now (s : State) : (drawInput s).input.now = s.clock + |Config.freeElapsed s.draws| := rfl
@[simp] theorem endStep_now (s : State) : (endStep s).input.now = s.input.now + |Config.freeElapsed s.draws| := rfl

end Sys2Proof.Machine
end

