-- ==== Sys2Proof/Laws/Registers.lean ====
section
/-! SUPPORT. Registers: a read after a write of a general register. -/

namespace Sys2Proof.Machine

theorem readV_writeV (s : State) (x r : Nibble) (b : Byte) :
    readV (writeV s x b) r = if r = x then b else readV s r := by
  simp only [readV, writeV, Vector.getElem_set, BitVec.toNat_inj, eq_comm (a := x)]

@[simp] theorem readV_writeV_same (s : State) (x : Nibble) (b : Byte) : readV (writeV s x b) x = b := by
  simp [readV_writeV]

theorem readV_writeV_other (s : State) {x r : Nibble} (b : Byte) (h : r ≠ x) :
    readV (writeV s x b) r = readV s r := by
  simp [readV_writeV, h]

/-- With x = VF the flag is what remains. -/
theorem readV_writeResultAndFlag (s : State) (x r : Nibble) (b f : Byte) :
    readV (writeResultAndFlag s x b f) r = if r = vf then f else if r = x then b else readV s r := by
  simp only [writeResultAndFlag, readV_writeV]

theorem readV_congr {s t : State} (h : t.v = s.v) (r : Nibble) : readV t r = readV s r := by
  simp only [readV, h]

theorem readV_writeRegsFromV0 (s : State) (bs : List Byte) (r : Nibble) :
    readV (writeRegsFromV0 s bs) r = (bs[r.toNat]?).getD (readV s r) := by
  simp [readV, writeRegsFromV0]

theorem regsUpTo_length (s : State) (x : Nibble) : (regsUpTo s x).length = x.toNat + 1 := by
  have := x.isLt
  simp only [regsUpTo, List.length_take, Vector.length_toList]
  omega

theorem regsUpTo_getElem (s : State) (x r : Nibble) (h : r.toNat < (regsUpTo s x).length) :
    (regsUpTo s x)[r.toNat] = readV s r := by
  simp [regsUpTo, readV]

theorem decimalDigits_length (b : Byte) : (decimalDigits b).length = 3 := rfl

end Sys2Proof.Machine
end

