-- ==== Sys2Proof/Laws/Display.lean ====
section
/-! SUPPORT. The frame buffer: what toggling a pixel, drawing a row and drawing a sprite do to every pixel and to the
collision. -/

namespace Sys2Proof.Machine

@[simp] theorem pixel_clearDisp (x y : Nat) : pixel clearDisp x y = false := by
  unfold pixel clearDisp
  split_ifs <;> simp

theorem pixel_outside (d : Disp) {x y : Nat} (h : ¬ (x < 64 ∧ y < 32)) : pixel d x y = false := by
  simp [pixel, h]

/-- Toggling the pixel at (px, py) of the grid changes that pixel and no other. -/
theorem pixel_flipPixel (d : Disp) {px py : Nat} (h : px < 64 ∧ py < 32) (x y : Nat) :
    pixel (flipPixel d px py) x y = ((x = px ∧ y = py : Bool) ^^ pixel d x y) := by
  unfold pixel flipPixel
  by_cases hxy : x < 64 ∧ y < 32
  · simp only [h, hxy, and_self, dite_true, Vector.getElem_set]
    by_cases hx : px = x
    · subst hx
      by_cases hy : py = y
      · subst hy; simp
      · simp [hy, eq_comm (a := y)]
    · simp [hx, eq_comm (a := x)]
  · have : ¬ (x = px ∧ y = py) := fun hc => hxy ⟨by omega, by omega⟩
    simp [hxy, this]

/-- Two frame buffers with the same pixels are the same. -/
theorem disp_ext {d e : Disp} (h : ∀ x y, x < 64 → y < 32 → pixel d x y = pixel e x y) : d = e := by
  apply Vector.ext
  intro x hx
  apply Vector.ext
  intro y hy
  simpa [pixel, hx, hy] using h x y hx hy

/-- One sprite bit: the pixel toggles when it lies in the grid. -/
theorem pixel_drawPixel (c : Canvas) (px py x y : Nat) :
    pixel (drawPixel c px py).1 x y =
      ((x = px ∧ y = py ∧ px < 64 ∧ py < 32 : Bool) ^^ pixel c.1 x y) := by
  unfold drawPixel
  by_cases h : px ≤ 63 ∧ py ≤ 31
  · have h' : px < 64 ∧ py < 32 := by omega
    rw [if_pos h, pixel_flipPixel c.1 h']
    simp [h'.1, h'.2]
  · have h' : ¬ (px < 64 ∧ py < 32) := by omega
    rw [if_neg h]
    have : ¬ (x = px ∧ y = py ∧ px < 64 ∧ py < 32) := fun hc => h' hc.2.2
    simp [this]

/-- One sprite bit: it collides when its pixel was set. -/
theorem collision_drawPixel (c : Canvas) (px py : Nat) :
    (drawPixel c px py).2 = (c.2 || pixel c.1 px py) := by
  unfold drawPixel
  split_ifs with h
  · rfl
  · rw [pixel_outside c.1 (by omega), Bool.or_false]

/-- Whether the columns `ks` of a sprite row whose column 0 stands at (x0, py) light the place (x, y). -/
def columnsLight (x0 py : Nat) (row : Byte) (ks : List Nat) (x y : Nat) : Bool :=
  decide (y = py ∧ x0 ≤ x ∧ (x - x0) ∈ ks ∧ spriteBit row (x - x0) = true)

/-- Drawing distinct columns toggles exactly the places of the grid they light. -/
theorem pixel_drawColumns (c : Canvas) (x0 py : Nat) (row : Byte) {ks : List Nat} (hk : ks.Nodup) {x y : Nat}
    (hx : x < 64) (hy : y < 32) :
    pixel (drawColumns c x0 py row ks).1 x y = (columnsLight x0 py row ks x y ^^ pixel c.1 x y) := by
  induction ks generalizing c with
  | nil => simp [drawColumns, columnsLight]
  | cons k ks ih =>
    obtain ⟨hk1, hk2⟩ := List.nodup_cons.1 hk
    rw [drawColumns, ih _ hk2]
    by_cases hb : spriteBit row k = true
    · rw [if_pos hb, pixel_drawPixel]
      by_cases hp : x = x0 + k ∧ y = py
      · obtain ⟨rfl, rfl⟩ := hp
        simp [columnsLight, hk1, hb, hx, hy]
      · have h1 : ¬ (x = x0 + k ∧ y = py ∧ x0 + k < 64 ∧ py < 32) := fun h => hp ⟨h.1, h.2.1⟩
        have h2 : columnsLight x0 py row (k :: ks) x y = columnsLight x0 py row ks x y := by
          unfold columnsLight
          congr 1
          apply propext
          constructor
          · rintro ⟨a, b, d, e⟩
            refine ⟨a, b, (List.mem_cons.1 d).resolve_left fun f => hp ⟨by omega, a⟩, e⟩
          · rintro ⟨a, b, d, e⟩
            exact ⟨a, b, List.mem_cons_of_mem _ d, e⟩
        rw [h2]
        simp [h1]
    · have h2 : columnsLight x0 py row (k :: ks) x y = columnsLight x0 py row ks x y := by
        unfold columnsLight
        congr 1
        apply propext
        constructor
        · rintro ⟨a, b, d, e⟩
          refine ⟨a, b, (List.mem_cons.1 d).resolve_left fun f => hb (f ▸ e), e⟩
        · rintro ⟨a, b, d, e⟩
          exact ⟨a, b, List.mem_cons_of_mem _ d, e⟩
      rw [if_neg hb, h2]

/-- Drawing distinct columns collides when a place they light was set before. -/
theorem collision_drawColumns (c : Canvas) (x0 py : Nat) (row : Byte) {ks : List Nat} (hk : ks.Nodup) :
    (drawColumns c x0 py row ks).2 = true ↔
      c.2 = true ∨ ∃ x y, x < 64 ∧ y < 32 ∧ columnsLight x0 py row ks x y = true ∧ pixel c.1 x y = true := by
  induction ks generalizing c with
  | nil => simp [drawColumns, columnsLight]
  | cons k ks ih =>
    obtain ⟨hk1, hk2⟩ := List.nodup_cons.1 hk
    rw [drawColumns, ih _ hk2]
    by_cases hb : spriteBit row k = true
    · rw [if_pos hb, collision_drawPixel]
      constructor
      · rintro (h | ⟨x, y, hx, hy, hl, hp⟩)
        · rcases Bool.or_eq_true_iff.1 h with h | h
          · exact .inl h
          · have hin : x0 + k < 64 ∧ py < 32 := by
              by_contra hc
              rw [pixel_outside c.1 hc] at h
              cases h
            exact .inr ⟨x0 + k, py, hin.1, hin.2, by simp [columnsLight, hb], h⟩
        · have hl' := of_decide_eq_true hl
          have hne : ¬ (x = x0 + k ∧ y = py ∧ x0 + k < 64 ∧ py < 32) := fun h =>
            hk1 (by have := hl'.2.2.1; rwa [h.1, Nat.add_sub_cancel_left] at this)
          rw [pixel_drawPixel] at hp
          refine .inr ⟨x, y, hx, hy, ?_, by simpa [hne] using hp⟩
          exact decide_eq_true ⟨hl'.1, hl'.2.1, List.mem_cons_of_mem _ hl'.2.2.1, hl'.2.2.2⟩
      · rintro (h | ⟨x, y, hx, hy, hl, hp⟩)
        · exact .inl (by simp [h])
        · have hl' := of_decide_eq_true hl
          rcases List.mem_cons.1 hl'.2.2.1 with hm | hm
          · have : x = x0 + k := by omega
            subst this
            rw [hl'.1] at hp
            exact .inl (by simp [hp])
          · have hne : ¬ (x = x0 + k ∧ y = py ∧ x0 + k < 64 ∧ py < 32) := fun h =>
              hk1 (by rwa [h.1, Nat.add_sub_cancel_left] at hm)
            refine .inr ⟨x, y, hx, hy, decide_eq_true ⟨hl'.1, hl'.2.1, hm, hl'.2.2.2⟩, ?_⟩
            rw [pixel_drawPixel]
            simpa [hne] using hp
    · rw [if_neg hb]
      constructor
      · rintro (h | ⟨x, y, hx, hy, hl, hp⟩)
        · exact .inl h
        · have hl' := of_decide_eq_true hl
          exact .inr ⟨x, y, hx, hy,
            decide_eq_true ⟨hl'.1, hl'.2.1, List.mem_cons_of_mem _ hl'.2.2.1, hl'.2.2.2⟩, hp⟩
      · rintro (h | ⟨x, y, hx, hy, hl, hp⟩)
        · exact .inl h
        · have hl' := of_decide_eq_true hl
          refine .inr ⟨x, y, hx, hy, decide_eq_true ⟨hl'.1, hl'.2.1, ?_, hl'.2.2.2⟩, hp⟩
          exact (List.mem_cons.1 hl'.2.2.1).resolve_left fun h => hb (h ▸ hl'.2.2.2)

/-- Whether sprite rows whose first stands at (x0, y0) light the place (x, y): the place lies in the sprite's 8
columns and in its rows, and its bit is set (R201). -/
def spriteLights (x0 y0 : Nat) (rows : List Byte) (x y : Nat) : Bool :=
  decide (x0 ≤ x ∧ x < x0 + 8 ∧ y0 ≤ y) && ((rows[y - y0]?).map fun row => spriteBit row (x - x0)).getD false

theorem columnsLight_eight (x0 py : Nat) (row : Byte) (x y : Nat) :
    columnsLight x0 py row [0, 1, 2, 3, 4, 5, 6, 7] x y =
      decide (y = py ∧ x0 ≤ x ∧ x < x0 + 8 ∧ spriteBit row (x - x0) = true) := by
  unfold columnsLight
  congr 1
  apply propext
  simp only [List.mem_cons, List.not_mem_nil, or_false]
  constructor
  · rintro ⟨a, b, d, e⟩
    exact ⟨a, b, by omega, e⟩
  · rintro ⟨a, b, d, e⟩
    exact ⟨a, b, by omega, e⟩

theorem spriteLights_cons (x0 y0 : Nat) (row : Byte) (rows : List Byte) (x y : Nat) :
    spriteLights x0 y0 (row :: rows) x y =
      (columnsLight x0 y0 row [0, 1, 2, 3, 4, 5, 6, 7] x y || spriteLights x0 (y0 + 1) rows x y) := by
  rw [columnsLight_eight, Bool.eq_iff_iff]
  unfold spriteLights
  rcases Nat.lt_trichotomy y y0 with h | rfl | h
  · have h1 : ¬ y0 ≤ y := by omega
    have h2 : ¬ y = y0 := by omega
    have h3 : ¬ y0 + 1 ≤ y := by omega
    simp [h1, h2, h3]
  · simp [and_assoc]
  · have h1 : y - y0 = (y - (y0 + 1)) + 1 := by omega
    have h2 : ¬ y = y0 := by omega
    have h3 : y0 ≤ y := by omega
    have h4 : y0 + 1 ≤ y := by omega
    simp [h1, h2, h3, h4]

/-- A row and the rows below it light different places. -/
theorem columnsLight_not_below {x0 y0 : Nat} {row : Byte} {rows : List Byte} {x y : Nat}
    (h : columnsLight x0 y0 row [0, 1, 2, 3, 4, 5, 6, 7] x y = true) : spriteLights x0 (y0 + 1) rows x y = false := by
  have hy := (of_decide_eq_true h).1
  have : ¬ y0 + 1 ≤ y := by omega
  simp [spriteLights, this]

theorem eight_columns_nodup : [0, 1, 2, 3, 4, 5, 6, 7].Nodup := by decide

/-- Drawing sprite rows toggles exactly the places of the grid the sprite lights (R201). -/
theorem pixel_drawRows (c : Canvas) (x0 y0 : Nat) (rows : List Byte) {x y : Nat} (hx : x < 64) (hy : y < 32) :
    pixel (drawRows c x0 y0 rows).1 x y = (spriteLights x0 y0 rows x y ^^ pixel c.1 x y) := by
  induction rows generalizing c y0 with
  | nil => simp [drawRows, spriteLights]
  | cons row rows ih =>
    rw [drawRows, ih, drawRow, pixel_drawColumns c x0 y0 row eight_columns_nodup hx hy, spriteLights_cons]
    cases h : columnsLight x0 y0 row [0, 1, 2, 3, 4, 5, 6, 7] x y with
    | true => simp [columnsLight_not_below h]
    | false => simp

/-- Drawing sprite rows collides when a place the sprite lights was set before (R201). -/
theorem collision_drawRows (c : Canvas) (x0 y0 : Nat) (rows : List Byte) :
    (drawRows c x0 y0 rows).2 = true ↔
      c.2 = true ∨ ∃ x y, x < 64 ∧ y < 32 ∧ spriteLights x0 y0 rows x y = true ∧ pixel c.1 x y = true := by
  induction rows generalizing c y0 with
  | nil => simp [drawRows, spriteLights]
  | cons row rows ih =>
    rw [drawRows, ih, drawRow, collision_drawColumns c x0 y0 row eight_columns_nodup]
    have hpix : ∀ x y, x < 64 → y < 32 → spriteLights x0 (y0 + 1) rows x y = true →
        pixel (drawColumns c x0 y0 row [0, 1, 2, 3, 4, 5, 6, 7]).1 x y = pixel c.1 x y := by
      intro x y hx hy hl
      rw [pixel_drawColumns c x0 y0 row eight_columns_nodup hx hy]
      cases h : columnsLight x0 y0 row [0, 1, 2, 3, 4, 5, 6, 7] x y with
      | true => rw [columnsLight_not_below h] at hl; cases hl
      | false => simp
    constructor
    · rintro ((h | ⟨x, y, hx, hy, hl, hp⟩) | ⟨x, y, hx, hy, hl, hp⟩)
      · exact .inl h
      · exact .inr ⟨x, y, hx, hy, by simp [spriteLights_cons, hl], hp⟩
      · exact .inr ⟨x, y, hx, hy, by simp [spriteLights_cons, hl], by rwa [hpix x y hx hy hl] at hp⟩
    · rintro (h | ⟨x, y, hx, hy, hl, hp⟩)
      · exact .inl (.inl h)
      · rw [spriteLights_cons, Bool.or_eq_true_iff] at hl
        rcases hl with hl | hl
        · exact .inl (.inr ⟨x, y, hx, hy, hl, hp⟩)
        · exact .inr ⟨x, y, hx, hy, hl, by rwa [hpix x y hx hy hl]⟩

end Sys2Proof.Machine
end

