-- ==== Sys2Proof/Laws/Memory.lean ====
section
/-! SUPPORT. Memory: a read after a write, the canonical form, and what the checked sequences of byte accesses can do. -/

namespace Sys2Proof.Machine

variable {font : Vector Byte 80}

theorem Memory.wfFrom_nil (lo : Nat) : Memory.wfFrom font lo [] = true := rfl

theorem Memory.wfFrom_cons {lo b : Nat} {u : Byte} {m : Memory} :
    Memory.wfFrom font lo ((b, u) :: m) = true ↔
      lo ≤ b ∧ b < 4096 ∧ u ≠ unlisted font b ∧ Memory.wfFrom font (b + 1) m = true := by
  simp [Memory.wfFrom, and_assoc]

theorem Memory.wfFrom_mono {m : Memory} {lo lo' : Nat} (h : lo' ≤ lo) (hm : Memory.wfFrom font lo m = true) :
    Memory.wfFrom font lo' m = true := by
  cases m with
  | nil => rfl
  | cons c m =>
    obtain ⟨b, u⟩ := c
    rw [Memory.wfFrom_cons] at hm ⊢
    exact ⟨by omega, hm.2⟩

/-- An address below where a canonical list starts is unlisted. -/
theorem Memory.read_below {m : Memory} {lo a : Nat} (hm : Memory.wfFrom font lo m = true) (h : a < lo) :
    Memory.read font m a = unlisted font a := by
  induction m generalizing lo with
  | nil => rfl
  | cons c m ih =>
    obtain ⟨b, u⟩ := c
    rw [Memory.wfFrom_cons] at hm
    have hab : a ≠ b := by omega
    simp only [Memory.read, hab, if_false]
    exact ih hm.2.2.2 (by omega)

/-- A write leaves every other address alone, whatever list it is done to. -/
theorem Memory.read_write_other (m : Memory) {a b : Nat} (x : Byte) (h : b ≠ a) :
    Memory.read font (Memory.write font m a x) b = Memory.read font m b := by
  induction m with
  | nil => unfold Memory.write; split <;> simp [Memory.read, h]
  | cons c m ih =>
    obtain ⟨d, u⟩ := c
    unfold Memory.write
    split_ifs with h1 h2 h3 h4
    · rfl
    · simp [Memory.read, h]
    · subst h3; simp [Memory.read, h]
    · subst h3; simp [Memory.read, h]
    · simp only [Memory.read, ih]

/-- A read of the address just written gives the byte written. -/
theorem Memory.read_write_same {m : Memory} {lo : Nat} (hm : Memory.wfFrom font lo m = true) (a : Nat) (x : Byte) :
    Memory.read font (Memory.write font m a x) a = x := by
  induction m generalizing lo with
  | nil => unfold Memory.write; split <;> simp_all [Memory.read]
  | cons c m ih =>
    obtain ⟨d, u⟩ := c
    rw [Memory.wfFrom_cons] at hm
    unfold Memory.write
    split_ifs with h1 h2 h3 h4
    · rw [h2]
      have : a ≠ d := by omega
      simp only [Memory.read, this, if_false]
      exact Memory.read_below hm.2.2.2 (by omega)
    · simp [Memory.read]
    · rw [h4]
      exact Memory.read_below hm.2.2.2 (by omega)
    · simp [Memory.read]
    · simp only [Memory.read, h3, if_false]
      exact ih hm.2.2.2

/-- A write inside the address space keeps the canonical form. -/
theorem Memory.wfFrom_write {m : Memory} {lo a : Nat} (x : Byte) (hm : Memory.wfFrom font lo m = true)
    (hlo : lo ≤ a) (ha : a < 4096) : Memory.wfFrom font lo (Memory.write font m a x) = true := by
  induction m generalizing lo with
  | nil =>
    unfold Memory.write
    split_ifs with h1
    · rfl
    · exact Memory.wfFrom_cons.2 ⟨hlo, ha, h1, rfl⟩
  | cons c m ih =>
    obtain ⟨d, u⟩ := c
    have hm' := Memory.wfFrom_cons.1 hm
    unfold Memory.write
    split_ifs with h1 h2 h3 h4
    · exact hm
    · exact Memory.wfFrom_cons.2 ⟨hlo, ha, h2, Memory.wfFrom_cons.2 ⟨by omega, hm'.2⟩⟩
    · exact Memory.wfFrom_mono (by omega) hm'.2.2.2
    · exact Memory.wfFrom_cons.2 ⟨hlo, ha, h4, h3 ▸ hm'.2.2.2⟩
    · exact Memory.wfFrom_cons.2 ⟨hm'.1, hm'.2.1, hm'.2.2.1, ih hm'.2.2.2 (by omega)⟩

theorem Memory.wf_write {m : Memory} {a : Nat} (x : Byte) (hm : Memory.wf font m = true) (ha : a < 4096) :
    Memory.wf font (Memory.write font m a x) = true :=
  Memory.wfFrom_write x hm (Nat.zero_le a) ha

theorem reset_memory_wf : Memory.wf State.reset.cfg.font State.reset.mem = true := rfl

/-! Reads of the state's memory -/

@[simp] theorem readByte_writeV (s : State) (x : Nibble) (b : Byte) (a : Nat) :
    readByte (writeV s x b) a = readByte s a := rfl

theorem readByte_congr {s t : State} (hm : t.mem = s.mem) (hc : t.cfg = s.cfg) (a : Nat) :
    readByte t a = readByte s a := by
  simp only [readByte, hm, hc]

theorem readByte_writeByte_other (s : State) {a b : Nat} (x : Byte) (h : b ≠ a) :
    readByte (writeByte s a x) b = readByte s b :=
  Memory.read_write_other s.mem x h

theorem readByte_writeByte_same {s : State} (hm : Memory.wf s.cfg.font s.mem = true) (a : Nat) (x : Byte) :
    readByte (writeByte s a x) a = x :=
  Memory.read_write_same hm a x

theorem writeByte_wf {s : State} {a : Nat} (x : Byte) (hm : Memory.wf s.cfg.font s.mem = true) (ha : a < 4096) :
    Memory.wf (writeByte s a x).cfg.font (writeByte s a x).mem = true :=
  Memory.wf_write x hm ha

/-- A sequence of unchecked writes changes memory only. -/
theorem writeBytes_fields (s : State) (a : Nat) (bs : List Byte) :
    writeBytes s a bs = { s with mem := (writeBytes s a bs).mem } := by
  induction bs generalizing s a with
  | nil => rfl
  | cons b bs ih => exact ih (writeByte s a b) (a + 1)

/-- Unchecked writes leave the bytes outside their range. -/
theorem readByte_writeBytes_other (s : State) {a c : Nat} (bs : List Byte) (h : c < a ∨ a + bs.length ≤ c) :
    readByte (writeBytes s a bs) c = readByte s c := by
  induction bs generalizing s a with
  | nil => rfl
  | cons b bs ih =>
    simp only [List.length_cons] at h
    rw [writeBytes, ih (writeByte s a b) (by omega)]
    exact readByte_writeByte_other s b (by omega)

/-- Unchecked writes put byte j at a + j, and keep the canonical form. -/
theorem writeBytes_inside {s : State} {a : Nat} {bs : List Byte} (hm : Memory.wf s.cfg.font s.mem = true)
    (h : a + bs.length ≤ 4096) :
    Memory.wf s.cfg.font (writeBytes s a bs).mem = true ∧
      ∀ j (hj : j < bs.length), readByte (writeBytes s a bs) (a + j) = bs[j] := by
  induction bs generalizing s a with
  | nil => exact ⟨hm, fun j hj => absurd hj (Nat.not_lt_zero j)⟩
  | cons b bs ih =>
    simp only [List.length_cons] at h
    obtain ⟨hw, hr⟩ := ih (s := writeByte s a b) (a := a + 1) (writeByte_wf b hm (by omega)) (by omega)
    refine ⟨hw, fun j hj => ?_⟩
    cases j with
    | zero =>
      rw [writeBytes, readByte_writeBytes_other _ _ (by omega)]
      exact readByte_writeByte_same hm a b
    | succ j =>
      have := hr j (by simpa using hj)
      rw [writeBytes]
      rw [show a + (j + 1) = a + 1 + j by omega]
      simpa using this

/-! Checked accesses -/

/-- What a checked read can answer: the byte, or MemOutOfRange above 0xFFF. -/
theorem memRead_eq (s : State) (a : Nat) :
    memRead s a = if a > 0xFFF then .error (.memOutOfRange a) else .ok (readByte s a) := rfl

/-- n reads that all lie below 0x1000 answer the bytes there. -/
theorem loadBytes_ok {s : State} {a n : Nat} (h : a + n ≤ 4096 ∨ n = 0) :
    loadBytes s a n = .ok ((List.range n).map fun j => readByte s (a + j)) := by
  induction n generalizing a with
  | zero => rfl
  | succ n ih =>
    have ha : ¬ a > 0xFFF := by omega
    rw [loadBytes, memRead, if_neg ha, ih (by omega), List.range_succ_eq_map]
    simp [Function.comp_def, Nat.add_assoc, Nat.add_comm 1]

/-- n reads of which some lies above 0xFFF answer MemOutOfRange at the lowest such address. -/
theorem loadBytes_error {s : State} {a n : Nat} (hn : n ≠ 0) (h : 4096 < a + n) :
    loadBytes s a n = .error (.memOutOfRange (max a 4096)) := by
  induction n generalizing a with
  | zero => exact absurd rfl hn
  | succ n ih =>
    by_cases ha : a > 0xFFF
    · rw [loadBytes, memRead, if_pos ha]
      simp only [Except.error.injEq, Cause.memOutOfRange.injEq]
      omega
    · rw [loadBytes, memRead, if_neg ha, ih (by omega) (by omega)]
      simp only [Except.error.injEq, Cause.memOutOfRange.injEq]
      omega

/-- A successful checked store was in range and unprotected, and is the plain write. -/
theorem memWrite_ok {s t : State} {a : Nat} {x : Byte} (h : memWrite s a x = .ok t) :
    a < 4096 ∧ ¬ (a < 80 ∧ s.cfg.fontProtect = .fault) ∧ t = writeByte s a x := by
  unfold memWrite at h
  split_ifs at h with h1 h2
  injection h with h
  refine ⟨by omega, fun hc => h2 ⟨by have := hc.1; omega, hc.2⟩, h.symm⟩

/-- A successful sequence of stores lies below 0x1000, touches no protected byte, and is the plain writes. -/
theorem storeBytes_ok {s t : State} {a : Nat} {bs : List Byte} (h : storeBytes s a bs = .ok t) :
    (a + bs.length ≤ 4096 ∨ bs = []) ∧ (s.cfg.fontProtect = .fault → 80 ≤ a ∨ bs = []) ∧
      t = writeBytes s a bs := by
  induction bs generalizing s a with
  | nil => injection h with h; exact ⟨.inr rfl, fun _ => .inr rfl, h.symm⟩
  | cons b bs ih =>
    unfold storeBytes at h
    split at h
    · cases h
    · next u hu =>
      obtain ⟨h1, h2, rfl⟩ := memWrite_ok hu
      obtain ⟨h3, h4, h5⟩ := ih h
      refine ⟨.inl ?_, fun hp => .inl ?_, h5⟩
      · rcases h3 with h3 | h3
        · simp only [List.length_cons]; omega
        · simp only [h3, List.length_cons, List.length_nil]; omega
      · by_contra hc
        exact h2 ⟨by omega, hp⟩

/-- Stores that lie below 0x1000 and touch no protected byte succeed. -/
theorem storeBytes_succeeds {s : State} {a : Nat} {bs : List Byte} (h : a + bs.length ≤ 4096)
    (hf : s.cfg.fontProtect = .fault → 80 ≤ a) : storeBytes s a bs = .ok (writeBytes s a bs) := by
  induction bs generalizing s a with
  | nil => rfl
  | cons b bs ih =>
    simp only [List.length_cons] at h
    have h1 : ¬ a > 0xFFF := by omega
    have h2 : ¬ (a ≤ 0x04F ∧ s.cfg.fontProtect = .fault) := fun hc => by
      have := hf hc.2
      omega
    rw [storeBytes, memWrite, if_neg h1, if_neg h2]
    exact ih (s := writeByte s a b) (by omega) (fun hp => by have := hf hp; omega)

/-- Stores whose first byte is protected answer FontWrite at that byte. -/
theorem storeBytes_fontWrite {s : State} {a : Nat} {bs : List Byte} (hb : bs ≠ []) (ha : a < 80)
    (hp : s.cfg.fontProtect = .fault) : storeBytes s a bs = .error (.fontWrite a) := by
  cases bs with
  | nil => exact absurd rfl hb
  | cons b bs =>
    have h1 : ¬ a > 0xFFF := by omega
    rw [storeBytes, memWrite, if_neg h1, if_pos ⟨by omega, hp⟩]

/-- Stores that begin on no protected byte and run above 0xFFF answer MemOutOfRange at the lowest such address. -/
theorem storeBytes_outOfRange {s : State} {a : Nat} {bs : List Byte} (hb : bs ≠ []) (h : 4096 < a + bs.length)
    (hf : s.cfg.fontProtect = .fault → 80 ≤ a) :
    storeBytes s a bs = .error (.memOutOfRange (max a 4096)) := by
  induction bs generalizing s a with
  | nil => exact absurd rfl hb
  | cons b bs ih =>
    by_cases h1 : a > 0xFFF
    · rw [storeBytes, memWrite, if_pos h1]
      simp only [Except.error.injEq, Cause.memOutOfRange.injEq]
      omega
    · have h2 : ¬ (a ≤ 0x04F ∧ s.cfg.fontProtect = .fault) := fun hc => by
        have := hf hc.2
        omega
      simp only [List.length_cons] at h
      have hbs : bs ≠ [] := fun hc => by
        subst hc
        simp only [List.length_nil] at h
        omega
      rw [storeBytes, memWrite, if_neg h1, if_neg h2]
      have := ih (s := writeByte s a b) (a := a + 1) hbs (by omega) (fun hp => by have := hf hp; omega)
      simp only [this, Except.error.injEq, Cause.memOutOfRange.injEq]
      omega

end Sys2Proof.Machine
end

