-- ==== Sys2Proof/Laws/Timers.lean ====
section
/-! SUPPORT. The timer block: how many ticks are due, and what they leave. -/

namespace Sys2Proof.Machine

/-- No tick is due exactly when no more than TICK has passed. -/
theorem ticksDue_eq_zero {now last : Rat} : ticksDue now last = 0 ↔ now - last ≤ tick := by
  rw [← Nat.le_zero, ticksDue, TimeDomain.standard.due_le, zero_nsmul, sub_zero]
  rfl

/-- The ticks due are the least number after which no more than TICK is left. -/
theorem ticksDue_le {now last : Rat} {k : Nat} : ticksDue now last ≤ k ↔ now - last - k * tick ≤ tick := by
  rw [ticksDue, TimeDomain.standard.due_le, nsmul_eq_mul]
  rfl

theorem countDown_toNat (dt : Byte) (k : Nat) : (countDown dt k).toNat = dt.toNat - k := by
  unfold countDown
  have := dt.isLt
  split_ifs with h
  · simp [h]
  · rw [BitVec.toNat_ofNat, Nat.mod_eq_of_lt (by omega)]

@[simp] theorem countDown_zero (dt : Byte) : countDown dt 0 = dt := by
  apply BitVec.eq_of_toNat_eq
  simp [countDown_toNat]

/-- The reconciliation of a state, in terms of the ticks due (R251). -/
theorem reconcileTimers_eq (now : Rat) (s : State) :
    reconcileTimers now s =
      { s with
        dt := countDown s.dt (ticksDue now s.lastTick)
        lastTick := s.lastTick + ticksDue now s.lastTick * tick } := by
  simp only [reconcileTimers, reconcile, nsmul_eq_mul]
  rfl

/-- What a reconciliation leaves in any domain of TIME, in terms of the ticks due. -/
theorem reconcile_due {T : Type} [AddCommGroup T] [LinearOrder T] [IsOrderedAddMonoid T] (time : TimeDomain T)
    (now last : T) (dt : Byte) :
    (reconcile time now last dt).1.toNat = dt.toNat - time.due (now - last) ∧
      (reconcile time now last dt).2 = last + time.due (now - last) • time.tick :=
  ⟨countDown_toNat _ _, rfl⟩

/-- Every domain of TIME in which each instant is at last passed by the ticks has its `TimeDomain` (R8). -/
theorem exists_timeDomain {T : Type} [AddCommGroup T] [LinearOrder T] [IsOrderedAddMonoid T] {t : T} (ht : 0 < t)
    (h : ∀ d : T, ∃ k : Nat, d ≤ k • t) : ∃ time : TimeDomain T, time.tick = t := by
  classical
  have hex : ∀ d : T, ∃ k : Nat, d - k • t ≤ t := fun d => by
    obtain ⟨k, hk⟩ := h d
    exact ⟨k, by rw [sub_le_iff_le_add]; exact hk.trans (le_add_of_nonneg_left ht.le)⟩
  refine ⟨⟨t, ht, fun d => Nat.find (hex d), fun d k => ?_⟩, rfl⟩
  constructor
  · intro hk
    exact (sub_le_sub_left (nsmul_le_nsmul_left ht.le hk) d).trans (Nat.find_spec (hex d))
  · exact fun hk => Nat.find_min' (hex d) hk

end Sys2Proof.Machine
end

