-- ==== Sys2Proof/Laws/Step.lean ====
section
/-! SUPPORT. What a step and the shared operations of its instruction can do, said once. -/

namespace Sys2Proof.Machine

/-- A step that completes: the machine was running, an instruction was fetched and decoded, it completed, and the
step ended. -/
theorem step_next {s t : State} (h : step s = .next t) :
    ∃ ins u, s.fault = none ∧ fetchDecode s = .ok ins ∧ exec ins (beginInstr s) = .next u ∧ t = endStep u := by
  unfold step at h
  split at h
  · cases h
  · next hf =>
    split at h
    · cases h
    · next ins hins =>
      unfold finishStep at h
      split at h
      · next u hu => injection h with h; exact ⟨ins, u, hf, hins, hu, h.symm⟩
      · cases h
      · cases h

/-- A step that faults: the fault was set already, or the fetch or the decoding failed, or the instruction raised
it. -/
theorem step_fault {s : State} {r : Fault} (h : step s = .fault r) :
    s.fault = some r ∨ s.fault = none ∧ (fetchDecode s = .error r ∨
      ∃ ins, fetchDecode s = .ok ins ∧ exec ins (beginInstr s) = .fault r) := by
  unfold step at h
  split at h
  · next q hq => injection h with h; exact .inl (h ▸ hq)
  · next hf =>
    split at h
    · next q hq => injection h with h; exact .inr ⟨hf, .inl (h ▸ hq)⟩
    · next ins hins =>
      unfold finishStep at h
      split at h
      · cases h
      · next q hq => injection h with h; exact .inr ⟨hf, .inr ⟨ins, hins, h ▸ hq⟩⟩
      · cases h

/-- A fetch that answers read the two bytes at PC and PC + 1, the first the high byte. -/
theorem fetch_ok {s : State} {w : Word} (h : fetch s = .ok w) :
    s.pc.toNat + 1 ≤ 0xFFF ∧ w = wordOfBytes (readByte s s.pc.toNat) (readByte s (s.pc.toNat + 1)) := by
  unfold fetch at h
  split_ifs at h with h1
  injection h with h
  exact ⟨by omega, h.symm⟩

/-- What fetch and decode can answer: the instruction of the fetched word. -/
theorem fetchDecode_ok {s : State} {ins : Instr} (h : fetchDecode s = .ok ins) :
    ∃ w, fetch s = .ok w ∧ decodeWord w = .ok ins := by
  unfold fetchDecode at h
  split at h
  · cases h
  · next w hw =>
    split at h
    · next q hq => injection h with h; exact ⟨w, hw, h ▸ hq⟩
    · cases h

/-- What fetch and decode can fail with: the fetch guard, or an illegal word. -/
theorem fetchDecode_error {s : State} {r : Fault} (h : fetchDecode s = .error r) :
    (r = .fetchOutOfRange s.pc ∧ s.pc.toNat + 1 > 0xFFF) ∨
      ∃ w c, fetch s = .ok w ∧ decodeWord w = .error c ∧ r = .decodeError s.pc w := by
  unfold fetchDecode at h
  split at h
  · next q hq =>
    unfold fetch at hq
    split_ifs at hq with h1
    injection hq with hq
    injection h with h
    exact .inl ⟨by rw [← h, ← hq], h1⟩
  · next w hw =>
    split at h
    · cases h
    · next c hc => injection h with h; exact .inr ⟨w, c, hw, hc, h.symm⟩

/-- An instruction with a check completes exactly when its effect does. -/
theorem completeOrRaise_next {ins : Instr} {s t : State} {e : Except Cause State} :
    completeOrRaise ins s e = .next t ↔ e = .ok t := by
  cases e <;> simp [completeOrRaise, raiseFault]

/-- An instruction with a check faults exactly when its effect fails, with the record of the cause. -/
theorem completeOrRaise_fault {ins : Instr} {s : State} {r : Fault} {e : Except Cause State} :
    completeOrRaise ins s e = .fault r ↔ ∃ c, e = .error c ∧ r = faultRecord ins s c := by
  cases e <;> simp [completeOrRaise, raiseFault, eq_comm]

/-- No instruction is refused. -/
theorem completeOrRaise_not_refused {ins : Instr} {s : State} {q : Refusal} {e : Except Cause State} :
    completeOrRaise ins s e ≠ .refused q := by
  cases e <;> simp [completeOrRaise, raiseFault]

theorem pushPc_ok {s t : State} (h : pushPc s = .ok t) :
    s.cfg.stackLimit ≠ some s.stack.length ∧ t = { s with stack := s.stack ++ [s.pc] } := by
  unfold pushPc at h
  split_ifs at h with h1
  injection h with h
  exact ⟨h1, h.symm⟩

theorem popPc_ok {s t : State} (h : popPc s = .ok t) :
    ∃ a rest, s.stack = rest ++ [a] ∧ t = { s with pc := a, stack := rest } := by
  unfold popPc at h
  split at h
  · cases h
  · next a ha =>
    injection h with h
    refine ⟨a, s.stack.dropLast, ?_, h.symm⟩
    obtain ⟨l, hl⟩ := List.getLast?_eq_some_iff.1 ha
    simp [hl]

/-- Every field but V, I, PC, Stack, DT, ST, Mem, Disp and the redraw flag is the step's own: no instruction's
effect on the stack touches it. -/
theorem callEffect_ok {nnn : Addr} {s t : State} (h : callEffect nnn s = .ok t) :
    s.cfg.stackLimit ≠ some s.stack.length ∧ t = { s with stack := s.stack ++ [s.pc], pc := absolute nnn } := by
  unfold callEffect at h
  split at h
  · cases h
  · next u hu =>
    obtain ⟨h1, rfl⟩ := pushPc_ok hu
    injection h with h
    exact ⟨h1, h.symm⟩

/-- FX33: a completed store is the plain writes of the three digits. -/
theorem execLdBVx_next {x : Nibble} {s t : State} (h : execLdBVx x s = .next t) :
    t = writeBytes s (dataBase s) (decimalDigits (readV s x)) :=
  (storeBytes_ok (completeOrRaise_next.1 h)).2.2

/-- FX55: a completed store is the plain writes of the registers, then the advance of I. -/
theorem execLdMemVx_next {x : Nibble} {s t : State} (h : execLdMemVx x s = .next t) :
    t = advanceI (writeBytes s (dataBase s) (regsUpTo s x)) x := by
  have h := completeOrRaise_next.1 h
  unfold storeRegsEffect at h
  split at h
  · cases h
  · next u hu => injection h with h; rw [← h, (storeBytes_ok hu).2.2]

/-- FX65: a completed load wrote the loaded bytes to V0..Vx, then advanced I. -/
theorem execLdVxMem_next {x : Nibble} {s t : State} (h : execLdVxMem x s = .next t) :
    ∃ bs, loadBytes s (dataBase s) (x.toNat + 1) = .ok bs ∧ t = advanceI (writeRegsFromV0 s bs) x := by
  have h := completeOrRaise_next.1 h
  unfold loadRegsEffect at h
  split at h
  · cases h
  · next bs hbs => injection h with h; exact ⟨bs, hbs, h.symm⟩

/-- DXYN: a completed draw read its rows and drew them. -/
theorem execDrw_next {x y n : Nibble} {s t : State} (h : execDrw x y n s = .next t) :
    ∃ rows, loadBytes s (dataBase s) n.toNat = .ok rows ∧ t = drawSprite s x y rows := by
  have h := completeOrRaise_next.1 h
  unfold drawEffect at h
  split at h
  · cases h
  · next rows hr => injection h with h; exact ⟨rows, hr, h.symm⟩

end Sys2Proof.Machine
end

