-- ==== Sys2Proof/Laws/Exec.lean ====
section
/-! SUPPORT. What every instruction leaves alone, what a draw leaves, and which key FX0A takes, said once. -/

namespace Sys2Proof.Machine

/-- No instruction changes last_tick, the fault record, the parameters, or the step's arguments, draws and instant. -/
theorem exec_own_fields {i : Instr} {s t : State} (h : exec i s = .next t) :
    t.cfg = s.cfg ∧ t.lastTick = s.lastTick ∧ t.fault = s.fault ∧ t.input = s.input ∧ t.keyPick = s.keyPick ∧
      t.clock = s.clock ∧ t.draws = s.draws := by
  cases i <;> simp only [exec] at h
  case drw => obtain ⟨rows, -, rfl⟩ := execDrw_next h; simp
  case ret => obtain ⟨a, b, c, rfl⟩ := popPc_ok (completeOrRaise_next.1 h); simp
  case call => obtain ⟨c, rfl⟩ := callEffect_ok (completeOrRaise_next.1 h); simp
  case ldBVx => rw [execLdBVx_next h, writeBytes_fields]; simp
  case ldMemVx => rw [execLdMemVx_next h, writeBytes_fields]; simp
  case ldVxMem => obtain ⟨bs, hb, rfl⟩ := execLdVxMem_next h; simp
  case addIVx => injection h with h; subst h; unfold addIndexEffect; split <;> simp
  case ldVxK => injection h with h; subst h; unfold waitKeyEffect; split <;> simp
  all_goals injection h with h; subst h; simp

/-- The keys of HeldSet are the held ones (R254). -/
theorem mem_heldKeys (s : State) (k : Nibble) : k ∈ heldKeys s ↔ keyHeld s k = true := by
  unfold heldKeys
  simp only [List.mem_filter, List.mem_map, List.mem_range]
  exact ⟨fun h => h.2, fun h => ⟨⟨k.toNat, k.isLt, by simp⟩, h⟩⟩

/-- The key FX0A takes is a held one (R223). -/
theorem chooseKey_some {s : State} {k : Nibble} (h : chooseKey s = some k) : keyHeld s k = true := by
  rw [← mem_heldKeys]
  unfold chooseKey at h
  split at h
  · cases h
  · next e => injection h with h; subst h; rw [e]; simp
  · next e =>
    split at h <;> (injection h with h; subst h; rw [e])
    · simp
    · rw [List.getD_eq_getElem _ _ (Nat.mod_lt _ (by simp))]
      exact List.getElem_mem _

/-- FX0A finds no key exactly when none is held (R223). -/
theorem chooseKey_none {s : State} : chooseKey s = none ↔ ∀ k, keyHeld s k = false := by
  simp only [← Bool.not_eq_true, ← mem_heldKeys]
  unfold chooseKey
  constructor
  · intro h k
    split at h
    · next e => rw [e]; simp
    · cases h
    · split at h <;> cases h
  · intro h
    rw [List.eq_nil_iff_forall_not_mem.2 h]

/-- A draw writes no register but VF, the collision (R201). -/
theorem readV_drawSprite (s : State) (x y r : Nibble) (rows : List Byte) :
    readV (drawSprite s x y rows) r =
      if r = vf then
        flagByte (drawRows (s.disp, false) ((readV s x).toNat % 64) ((readV s y).toNat % 32) rows).2
      else readV s r := by
  simp only [drawSprite, readV_writeV]
  rfl

/-- A draw toggles the places its rows light (R201). -/
theorem pixel_drawSprite (s : State) (x y : Nibble) (rows : List Byte) {px py : Nat} (hx : px < 64) (hy : py < 32) :
    pixel (drawSprite s x y rows).disp px py =
      (spriteLights ((readV s x).toNat % 64) ((readV s y).toNat % 32) rows px py ^^ pixel s.disp px py) :=
  pixel_drawRows (s.disp, false) _ _ rows hx hy

end Sys2Proof.Machine
end

