-- ==== Sys2Proof/Laws/AnyTime.lean ====
section
/-! SUPPORT. The machine over any domain of TIME: what a step there can do, and the fields of the states it goes
through. -/

namespace Sys2Proof.Machine

/-! Fields of `untimed`, the block with a step's held keys and random byte -/

@[simp] theorem untimed_v (s : State) (h : Vector Bool 16) (b : Byte) : (untimed s h b).v = s.v := rfl
@[simp] theorem untimed_i (s : State) (h : Vector Bool 16) (b : Byte) : (untimed s h b).i = s.i := rfl
@[simp] theorem untimed_pc (s : State) (h : Vector Bool 16) (b : Byte) : (untimed s h b).pc = s.pc := rfl
@[simp] theorem untimed_stack (s : State) (h : Vector Bool 16) (b : Byte) : (untimed s h b).stack = s.stack := rfl
@[simp] theorem untimed_dt (s : State) (h : Vector Bool 16) (b : Byte) : (untimed s h b).dt = s.dt := rfl
@[simp] theorem untimed_st (s : State) (h : Vector Bool 16) (b : Byte) : (untimed s h b).st = s.st := rfl
@[simp] theorem untimed_mem (s : State) (h : Vector Bool 16) (b : Byte) : (untimed s h b).mem = s.mem := rfl
@[simp] theorem untimed_disp (s : State) (h : Vector Bool 16) (b : Byte) : (untimed s h b).disp = s.disp := rfl
@[simp] theorem untimed_lastTick (s : State) (h : Vector Bool 16) (b : Byte) : (untimed s h b).lastTick = 0 := rfl
@[simp] theorem untimed_fault (s : State) (h : Vector Bool 16) (b : Byte) : (untimed s h b).fault = s.fault := rfl
@[simp] theorem untimed_cfg (s : State) (h : Vector Bool 16) (b : Byte) : (untimed s h b).cfg = s.cfg := rfl
@[simp] theorem untimed_input (s : State) (h : Vector Bool 16) (b : Byte) :
    (untimed s h b).input = { now := 0, held := h, rnd := b } := rfl
@[simp] theorem untimed_keyPick (s : State) (h : Vector Bool 16) (b : Byte) : (untimed s h b).keyPick = s.keyPick := rfl
@[simp] theorem untimed_clock (s : State) (h : Vector Bool 16) (b : Byte) : (untimed s h b).clock = 0 := rfl
@[simp] theorem untimed_redraw (s : State) (h : Vector Bool 16) (b : Byte) : (untimed s h b).redraw = s.redraw := rfl
@[simp] theorem untimed_draws (s : State) (h : Vector Bool 16) (b : Byte) : (untimed s h b).draws = s.draws := rfl

/-- The instruction a block is about to run does not depend on instants or inputs. -/
@[simp] theorem fetchDecode_untimed (s : State) (h : Vector Bool 16) (b : Byte) :
    fetchDecode (untimed s h b) = fetchDecode s := rfl

variable {T : Type} [AddCommGroup T] [LinearOrder T] [IsOrderedAddMonoid T]

/-- A step that completes in a domain of TIME: the block's step completed, and the timers were reconciled. -/
theorem stepIn_next {time : TimeDomain T} {inp : TimedInput T} {s t : TimedState T} (h : stepIn time inp s = .next t) :
    ∃ u, step (untimed s.block inp.held inp.rnd) = .next u ∧ t = timedAfter time inp.now s.lastTick u := by
  unfold stepIn at h
  split at h
  · next u hu => injection h with h; exact ⟨u, hu, h.symm⟩
  · cases h
  · cases h

/-- A step of the block in which none of its own time passes takes no tick: DT is the instruction's. -/
theorem step_untimed_dt {s u : State} {h : Vector Bool 16} {b : Byte} (hs : step (untimed s h b) = .next u) :
    ∃ i w, fetchDecode s = .ok i ∧ exec i (beginInstr (untimed s h b)) = .next w ∧ u = endStep w ∧ u.dt = w.dt := by
  obtain ⟨i, w, -, hd, he, rfl⟩ := step_next hs
  obtain ⟨-, hl, -, hin, -⟩ := exec_own_fields he
  have hk : ticksDue w.input.now w.lastTick = 0 := by
    rw [hl, hin, ticksDue_eq_zero]
    simp
  exact ⟨i, w, hd, he, rfl, by rw [endStep_dt, hk, countDown_zero]⟩

end Sys2Proof.Machine
end

