-- ==== Sys2Proof/Laws/Encoding.lean ====
section
/-! SUPPORT. Fields of a word built from a format, and words built from their own fields (spec/30_encoding.md R81,
R83). -/

namespace Sys2Proof

@[simp] theorem fieldO_formatA (o : Nibble) (nnn : Addr) : fieldO (formatA o nnn) = o := by
  ext j hj
  interval_cases j <;> simp [fieldO, formatA]

@[simp] theorem fieldNNN_formatA (o : Nibble) (nnn : Addr) : fieldNNN (formatA o nnn) = nnn := by
  ext j hj
  interval_cases j <;> simp [fieldNNN, formatA]

@[simp] theorem fieldO_formatI (o x : Nibble) (nn : Byte) : fieldO (formatI o x nn) = o := by
  ext j hj
  interval_cases j <;> simp [fieldO, formatI]

@[simp] theorem fieldX_formatI (o x : Nibble) (nn : Byte) : fieldX (formatI o x nn) = x := by
  ext j hj
  interval_cases j <;> simp [fieldX, formatI]

@[simp] theorem fieldNN_formatI (o x : Nibble) (nn : Byte) : fieldNN (formatI o x nn) = nn := by
  ext j hj
  interval_cases j <;> simp [fieldNN, formatI]

@[simp] theorem fieldO_formatR (o x y s : Nibble) : fieldO (formatR o x y s) = o := by
  ext j hj
  interval_cases j <;> simp [fieldO, formatR]

@[simp] theorem fieldX_formatR (o x y s : Nibble) : fieldX (formatR o x y s) = x := by
  ext j hj
  interval_cases j <;> simp [fieldX, formatR]

@[simp] theorem fieldY_formatR (o x y s : Nibble) : fieldY (formatR o x y s) = y := by
  ext j hj
  interval_cases j <;> simp [fieldY, formatR]

@[simp] theorem fieldN_formatR (o x y s : Nibble) : fieldN (formatR o x y s) = s := by
  ext j hj
  interval_cases j <;> simp [fieldN, formatR]

/-- A word is its own fields put together in format A. -/
theorem formatA_fields (w : Word) : formatA (fieldO w) (fieldNNN w) = w := by
  ext j hj
  interval_cases j <;> simp [formatA, fieldO, fieldNNN]

/-- A word is its own fields put together in format I. -/
theorem formatI_fields (w : Word) : formatI (fieldO w) (fieldX w) (fieldNN w) = w := by
  ext j hj
  interval_cases j <;> simp [formatI, fieldO, fieldX, fieldNN]

/-- A word is its own fields put together in format R. -/
theorem formatR_fields (w : Word) : formatR (fieldO w) (fieldX w) (fieldY w) (fieldN w) = w := by
  ext j hj
  interval_cases j <;> simp [formatR, fieldO, fieldX, fieldY, fieldN]

/-- A word is its two bytes, high byte first. -/
@[simp] theorem wordOfBytes_bytes (w : Word) : wordOfBytes (highByte w) (lowByte w) = w := by
  ext j hj
  interval_cases j <;> simp [wordOfBytes, highByte, lowByte]

/-- The word of two bytes as a number (R54). -/
theorem wordOfBytes_toNat (hi lo : Byte) : (wordOfBytes hi lo).toNat = 256 * hi.toNat + lo.toNat := by
  have h1 := hi.isLt
  have h2 := lo.isLt
  rw [wordOfBytes, BitVec.toNat_or, BitVec.toNat_shiftLeft, BitVec.toNat_setWidth, BitVec.toNat_setWidth,
    Nat.mod_eq_of_lt (a := hi.toNat) (by omega), Nat.mod_eq_of_lt (a := lo.toNat) (by omega), Nat.shiftLeft_eq,
    Nat.mod_eq_of_lt (by omega), Nat.mul_comm, ← Nat.two_pow_add_eq_or_of_lt (i := 8) h2]

end Sys2Proof
end

