-- ==== Sys2Proof/Laws/PerInstr.lean ====
section
/-! SUPPORT. The per-instruction family EncodeLegal: every instruction's word falls into none of the
illegal classes (a)-(f) of R85. -/

set_option Elab.async false

namespace Sys2Proof.Laws.EncodeLegal

open Sys2Proof

/-- The instruction's word falls into no illegal class. -/
def Statement (i : Instr) : Prop :=
  illegalClass (encode i) = none

/-- The illegal classes in terms of the fields of R81. -/
theorem illegalClass_fields (w : Word) : illegalClass w =
    match fieldO w with
    | 0x0#4 => if w = 0x00E0#16 ∨ w = 0x00EE#16 then none else some .family0
    | 0x5#4 => if fieldN w ≠ 0 then some .family5 else none
    | 0x8#4 => if fieldN w ∈ [0x8#4, 0x9#4, 0xA#4, 0xB#4, 0xC#4, 0xD#4, 0xF#4] then some .family8 else none
    | 0x9#4 => if fieldN w ≠ 0 then some .family9 else none
    | 0xE#4 => if fieldNN w ∉ [0x9E#8, 0xA1#8] then some .familyE else none
    | 0xF#4 =>
      if fieldNN w ∉ [0x07#8, 0x0A#8, 0x15#8, 0x18#8, 0x1E#8, 0x29#8, 0x33#8, 0x55#8, 0x65#8] then some .familyF
      else none
    | _ => none := rfl

theorem cls : Statement .cls := by unfold Statement; decide

theorem ret : Statement .ret := by unfold Statement; decide

theorem jp (nnn : Addr) : Statement (.jp nnn) := by
  simp [Statement, illegalClass_fields, encode]

theorem call (nnn : Addr) : Statement (.call nnn) := by
  simp [Statement, illegalClass_fields, encode]

theorem seImm (x : Nibble) (nn : Byte) : Statement (.seImm x nn) := by
  simp [Statement, illegalClass_fields, encode]

theorem sneImm (x : Nibble) (nn : Byte) : Statement (.sneImm x nn) := by
  simp [Statement, illegalClass_fields, encode]

theorem seReg (x y : Nibble) : Statement (.seReg x y) := by
  simp [Statement, illegalClass_fields, encode]

theorem ldImm (x : Nibble) (nn : Byte) : Statement (.ldImm x nn) := by
  simp [Statement, illegalClass_fields, encode]

theorem addImm (x : Nibble) (nn : Byte) : Statement (.addImm x nn) := by
  simp [Statement, illegalClass_fields, encode]

theorem ldReg (x y : Nibble) : Statement (.ldReg x y) := by
  simp [Statement, illegalClass_fields, encode]

theorem or (x y : Nibble) : Statement (.or x y) := by
  simp [Statement, illegalClass_fields, encode]

theorem and (x y : Nibble) : Statement (.and x y) := by
  simp [Statement, illegalClass_fields, encode]

theorem xor (x y : Nibble) : Statement (.xor x y) := by
  simp [Statement, illegalClass_fields, encode]

theorem addReg (x y : Nibble) : Statement (.addReg x y) := by
  simp [Statement, illegalClass_fields, encode]

theorem sub (x y : Nibble) : Statement (.sub x y) := by
  simp [Statement, illegalClass_fields, encode]

theorem shr (x y : Nibble) : Statement (.shr x y) := by
  simp [Statement, illegalClass_fields, encode]

theorem subn (x y : Nibble) : Statement (.subn x y) := by
  simp [Statement, illegalClass_fields, encode]

theorem shl (x y : Nibble) : Statement (.shl x y) := by
  simp [Statement, illegalClass_fields, encode]

theorem sneReg (x y : Nibble) : Statement (.sneReg x y) := by
  simp [Statement, illegalClass_fields, encode]

theorem ldI (nnn : Addr) : Statement (.ldI nnn) := by
  simp [Statement, illegalClass_fields, encode]

theorem jpV0 (nnn : Addr) : Statement (.jpV0 nnn) := by
  simp [Statement, illegalClass_fields, encode]

theorem rnd (x : Nibble) (nn : Byte) : Statement (.rnd x nn) := by
  simp [Statement, illegalClass_fields, encode]

theorem drw (x y n : Nibble) : Statement (.drw x y n) := by
  simp [Statement, illegalClass_fields, encode]

theorem skp (x : Nibble) : Statement (.skp x) := by
  simp [Statement, illegalClass_fields, encode]

theorem sknp (x : Nibble) : Statement (.sknp x) := by
  simp [Statement, illegalClass_fields, encode]

theorem ldVxDt (x : Nibble) : Statement (.ldVxDt x) := by
  simp [Statement, illegalClass_fields, encode]

theorem ldVxK (x : Nibble) : Statement (.ldVxK x) := by
  simp [Statement, illegalClass_fields, encode]

theorem ldDtVx (x : Nibble) : Statement (.ldDtVx x) := by
  simp [Statement, illegalClass_fields, encode]

theorem ldStVx (x : Nibble) : Statement (.ldStVx x) := by
  simp [Statement, illegalClass_fields, encode]

theorem addIVx (x : Nibble) : Statement (.addIVx x) := by
  simp [Statement, illegalClass_fields, encode]

theorem ldFVx (x : Nibble) : Statement (.ldFVx x) := by
  simp [Statement, illegalClass_fields, encode]

theorem ldBVx (x : Nibble) : Statement (.ldBVx x) := by
  simp [Statement, illegalClass_fields, encode]

theorem ldMemVx (x : Nibble) : Statement (.ldMemVx x) := by
  simp [Statement, illegalClass_fields, encode]

theorem ldVxMem (x : Nibble) : Statement (.ldVxMem x) := by
  simp [Statement, illegalClass_fields, encode]

end Sys2Proof.Laws.EncodeLegal
end

