-- ==== Sys2Proof/Tests/Slice0.lean ====
section
/-! SUPPORT. The model's own tests: the well-formedness smoke test, decodings written out from the encodings of
spec/30_encoding.md, single steps whose results stand in spec/95_test_vectors.md, and a witness for the hypotheses of
each obligation that has any. -/

set_option Elab.async false

namespace Sys2Proof.Tests

open Sys2Proof Sys2Proof.Machine

/-- The arguments of a Step call in which no time has passed and no key is held. -/
def quiet : StepInput where
  now := 0
  held := Vector.replicate 16 false
  rnd := 0

/-- The state after reset with those arguments, FX1E_VF_NOWRAP = unchanged and KEY_CHOICE = lowest: the start of
most vectors of spec/95. -/
def machine : State :=
  { State.reset with
    cfg := { Config.standard with fx1eVfNowrap := .unchanged, keyChoice := .lowest }
    input := quiet
    keyPick := 0 }

/-- A state with a word stored at an address, and PC there. -/
def place (a : Nat) (w : Word) (s : State) : State :=
  placeWord { s with pc := BitVec.ofNat 16 a } w

/-- A state with some registers set. -/
def regs (l : List (Nibble × Byte)) (s : State) : State :=
  l.foldl (fun t p => writeV t p.1 p.2) s

/-- A state with some keys held. -/
def holding (l : List Nat) (s : State) : State :=
  { s with input := { s.input with held := Vector.ofFn fun k : Fin 16 => l.contains k.val } }

/-- A state with some pixels on. -/
def lit (l : List (Nat × Nat)) (s : State) : State :=
  { s with disp := l.foldl (fun d p => flipPixel d p.1 p.2) s.disp }

/-- The outcome is a next state with this property. -/
def check (o : Host.Outcome State Fault Refusal) (p : State → Bool) : Bool :=
  match o with
  | .next t => p t
  | _ => false

/-- The outcome is this fault. -/
def faults (o : Host.Outcome State Fault Refusal) (r : Fault) : Bool :=
  match o with
  | .fault q => decide (q = r)
  | _ => false

/-! The well-formedness smoke test: an ill-formed word for each class of R85, refused by the rows and by the decoder. -/

theorem test_ill_formed_family0 :
    illegalClass 0x0123 = some .family0 ∧ wordLegal 0x0123 = false ∧ decodeWord 0x0123 = .error .family0 := by decide +kernel

theorem test_ill_formed_family5 :
    illegalClass 0x5001 = some .family5 ∧ wordLegal 0x5001 = false ∧ decodeWord 0x5001 = .error .family5 := by decide +kernel

theorem test_ill_formed_family8 :
    illegalClass 0x8008 = some .family8 ∧ wordLegal 0x8008 = false ∧ decodeWord 0x8008 = .error .family8 := by decide +kernel

theorem test_ill_formed_family9 :
    illegalClass 0x9011 = some .family9 ∧ wordLegal 0x9011 = false ∧ decodeWord 0x9011 = .error .family9 := by decide +kernel

theorem test_ill_formed_familyE :
    illegalClass 0xE09F = some .familyE ∧ wordLegal 0xE09F = false ∧ decodeWord 0xE09F = .error .familyE := by decide +kernel

theorem test_ill_formed_familyF :
    illegalClass 0xF0FF = some .familyF ∧ wordLegal 0xF0FF = false ∧ decodeWord 0xF0FF = .error .familyF := by decide +kernel

/-! Decoding: words written out bit by bit, family, fields, selector (R83, R92). -/

theorem test_decode_control_flow :
    decodeWord 0b0000000011101110#16 = .ok (.ret) ∧
    decodeWord 0b0001001000000100#16 = .ok (.jp 0x204) ∧
    decodeWord 0b0010001000010000#16 = .ok (.call 0x210) ∧
    decodeWord 0b0011000100000100#16 = .ok (.seImm 1 4) ∧
    decodeWord 0b0100001000000110#16 = .ok (.sneImm 2 6) ∧
    decodeWord 0b0101001101000000#16 = .ok (.seReg 3 4) ∧
    decodeWord 0b1001000000010000#16 = .ok (.sneReg 0 1) ∧
    decodeWord 0b1011001100000000#16 = .ok (.jpV0 0x300) := by decide +kernel

theorem test_decode_register_alu :
    decodeWord 0b0110101001000010#16 = .ok (.ldImm 10 0x42) ∧
    decodeWord 0b0111000111111111#16 = .ok (.addImm 1 0xFF) ∧
    decodeWord 0b1000000000010000#16 = .ok (.ldReg 0 1) ∧
    decodeWord 0b1000000000010001#16 = .ok (.or 0 1) ∧
    decodeWord 0b1000000000010010#16 = .ok (.and 0 1) ∧
    decodeWord 0b1000000000010011#16 = .ok (.xor 0 1) := by decide +kernel

theorem test_decode_flag_alu :
    decodeWord 0b1000000000010100#16 = .ok (.addReg 0 1) ∧
    decodeWord 0b1000001000110101#16 = .ok (.sub 2 3) ∧
    decodeWord 0b1000010101000110#16 = .ok (.shr 5 4) ∧
    decodeWord 0b1000000000010111#16 = .ok (.subn 0 1) ∧
    decodeWord 0b1000111101001110#16 = .ok (.shl 15 4) ∧
    decodeWord 0b1100001100001111#16 = .ok (.rnd 3 0x0F) := by decide +kernel

theorem test_decode_index_memory :
    decodeWord 0b1010001100000000#16 = .ok (.ldI 0x300) ∧
    decodeWord 0b1111001100011110#16 = .ok (.addIVx 3) ∧
    decodeWord 0b1111011100101001#16 = .ok (.ldFVx 7) ∧
    decodeWord 0b1111000000110011#16 = .ok (.ldBVx 0) ∧
    decodeWord 0b1111001001010101#16 = .ok (.ldMemVx 2) ∧
    decodeWord 0b1111001001100101#16 = .ok (.ldVxMem 2) := by decide +kernel

theorem test_decode_display :
    decodeWord 0b0000000011100000#16 = .ok (.cls) ∧
    decodeWord 0b1101101010110010#16 = .ok (.drw 10 11 2) := by decide +kernel

theorem test_decode_keys_timers :
    decodeWord 0b1110000110011110#16 = .ok (.skp 1) ∧
    decodeWord 0b1110000110100001#16 = .ok (.sknp 1) ∧
    decodeWord 0b1111001100000111#16 = .ok (.ldVxDt 3) ∧
    decodeWord 0b1111001000001010#16 = .ok (.ldVxK 2) ∧
    decodeWord 0b1111000000010101#16 = .ok (.ldDtVx 0) ∧
    decodeWord 0b1111000000011000#16 = .ok (.ldStVx 0) := by decide +kernel

theorem test_decode_bytes :
    decode [0x12, 0x04, 0x60] = .ok (.jp 0x204, [0x60]) ∧ decode [0x12] = .error .truncated := by decide +kernel

theorem test_decode_table_word :
    decodeTableWord 16 0xDAB2 = some (.drw 10 11 2) ∧ decodeTableWord 16 0x8008 = none := by decide +kernel

/-! Single steps, each with the name of its vector in spec/95_test_vectors.md. -/

/-- CF1. -/
theorem test_ret :
    check (step (place 0x210 0x00EE ({ machine with stack := [0x206] }))) (fun t => t.pc == 0x206 && t.stack == []) = true := by decide +kernel

/-- CF2. -/
theorem test_ret_empty :
    faults (step (place 0x200 0x00EE (machine))) (.stackUnderflow 0x200 0x00EE) = true := by decide +kernel

/-- CF3. -/
theorem test_jp :
    check (step (place 0x200 0x1ABC (machine))) (fun t => t.pc == 0xABC) = true := by decide +kernel

/-- CF14, W7. -/
theorem test_jp_illegal :
    faults (step (place 0x200 0x5001 (machine))) (.decodeError 0x200 0x5001) = true := by decide +kernel

/-- CF5. -/
theorem test_call :
    check (step (place 0x204 0x2210 (machine))) (fun t => t.pc == 0x210 && t.stack == [0x206]) = true := by decide +kernel

/-- CF6. -/
theorem test_call_full :
    faults (step (place 0x204 0x2210 ({ machine with stack := [0x300], cfg := { machine.cfg with stackLimit := some 1 } }))) (.stackOverflow 0x204 0x2210) = true := by decide +kernel

/-- CF8. -/
theorem test_se_imm :
    check (step (place 0x208 0x3100 (regs [(1, 0x00)] machine))) (fun t => t.pc == 0x20C) = true := by decide +kernel

/-- CF20. -/
theorem test_se_imm_top :
    check (step (place 0xFFE 0x3000 (regs [(0, 0x00)] machine))) (fun t => t.pc == 0x1002) = true := by decide +kernel

/-- CF10. -/
theorem test_sne_imm :
    check (step (place 0x300 0x4205 (regs [(2, 0x05)] machine))) (fun t => t.pc == 0x302) = true := by decide +kernel

/-- CF11. -/
theorem test_sne_imm_skip :
    check (step (place 0x300 0x4206 (regs [(2, 0x05)] machine))) (fun t => t.pc == 0x304) = true := by decide +kernel

/-- CF12. -/
theorem test_se_reg :
    check (step (place 0x200 0x5340 (regs [(3, 0x7F), (4, 0x7F)] machine))) (fun t => t.pc == 0x204) = true := by decide +kernel

/-- CF15. -/
theorem test_sne_reg :
    check (step (place 0x200 0x9010 (regs [(0, 0x01), (1, 0x02)] machine))) (fun t => t.pc == 0x204) = true := by decide +kernel

/-- CF16. -/
theorem test_sne_reg_same :
    check (step (place 0x200 0x9000 (machine))) (fun t => t.pc == 0x202) = true := by decide +kernel

/-- CF19. -/
theorem test_jp_v0_wraps :
    check (step (place 0x200 0xBFFF (regs [(0, 0x02)] machine))) (fun t => t.pc == 0x001) = true := by decide +kernel

/-- A1. -/
theorem test_ld_imm :
    check (step (place 0x200 0x6A42 (machine))) (fun t => readV t 10 == 0x42 && t.pc == 0x202) = true := by decide +kernel

/-- A2. -/
theorem test_add_imm_wraps :
    check (step (place 0x200 0x70FF (regs [(0, 0x01), (15, 0x05)] machine))) (fun t => readV t 0 == 0x00 && readV t 15 == 0x05) = true := by decide +kernel

/-- A4. -/
theorem test_ld_reg :
    check (step (place 0x200 0x8010 (regs [(0, 0x03), (1, 0x9C)] machine))) (fun t => readV t 0 == 0x9C) = true := by decide +kernel

/-- A5. -/
theorem test_or :
    check (step (place 0x200 0x8011 (regs [(0, 0xF0), (1, 0x0F), (15, 0x07)] machine))) (fun t => readV t 0 == 0xFF && readV t 15 == 0x07) = true := by decide +kernel

/-- A6. -/
theorem test_and :
    check (step (place 0x200 0x8012 (regs [(0, 0xF0), (1, 0x3C), (15, 0x07)] machine))) (fun t => readV t 0 == 0x30 && readV t 15 == 0x07) = true := by decide +kernel

/-- A7. -/
theorem test_xor :
    check (step (place 0x200 0x8013 (regs [(0, 0xFF), (1, 0x0F), (15, 0x07)] machine))) (fun t => readV t 0 == 0xF0 && readV t 15 == 0x07) = true := by decide +kernel

/-- A11. -/
theorem test_add_reg_flag_last :
    check (step (place 0x200 0x8F14 (regs [(15, 0xFF), (1, 0x01)] machine))) (fun t => readV t 15 == 1) = true := by decide +kernel

/-- A12. -/
theorem test_add_reg_from_flag :
    check (step (place 0x200 0x80F4 (regs [(0, 0x10), (15, 0x01)] machine))) (fun t => readV t 0 == 0x11 && readV t 15 == 0) = true := by decide +kernel

/-- A13. -/
theorem test_sub :
    check (step (place 0x200 0x8015 (regs [(0, 0x01), (1, 0x02)] machine))) (fun t => readV t 0 == 0xFF && readV t 15 == 0) = true := by decide +kernel

/-- A14. -/
theorem test_sub_equal :
    check (step (place 0x200 0x8015 (regs [(0, 0x05), (1, 0x05)] machine))) (fun t => readV t 0 == 0 && readV t 15 == 0) = true := by decide +kernel

/-- A17. -/
theorem test_shr_takes_vy :
    check (step (place 0x200 0x8016 (regs [(0, 0xAA), (1, 0x05)] machine))) (fun t => readV t 0 == 2 && readV t 15 == 1) = true := by decide +kernel

/-- A18. -/
theorem test_shr_flag_last :
    check (step (place 0x200 0x8F16 (regs [(1, 0x04)] machine))) (fun t => readV t 15 == 0) = true := by decide +kernel

/-- A20. -/
theorem test_subn :
    check (step (place 0x200 0x8017 (regs [(0, 0x01), (1, 0x03)] machine))) (fun t => readV t 0 == 2 && readV t 15 == 1) = true := by decide +kernel

/-- A21. -/
theorem test_subn_borrow :
    check (step (place 0x200 0x8017 (regs [(0, 0x02), (1, 0x01)] machine))) (fun t => readV t 0 == 0xFF && readV t 15 == 0) = true := by decide +kernel

/-- A23. -/
theorem test_shl_takes_vy :
    check (step (place 0x200 0x801E (regs [(1, 0x81)] machine))) (fun t => readV t 0 == 2 && readV t 15 == 1) = true := by decide +kernel

/-- A25. -/
theorem test_shl_in_place :
    check (step (place 0x200 0x800E (regs [(0, 0x40)] machine))) (fun t => readV t 0 == 0x80 && readV t 15 == 0) = true := by decide +kernel

/-- A26. -/
theorem test_rnd :
    check (step (place 0x200 0xC00F ({ machine with input := { quiet with rnd := 0xB7 } }))) (fun t => readV t 0 == 7) = true := by decide +kernel

/-- M1. -/
theorem test_ld_i :
    check (step (place 0x200 0xA300 (machine))) (fun t => t.i == 0x300) = true := by decide +kernel

/-- M2. -/
theorem test_add_i_wraps :
    check (step (place 0x200 0xF31E ({ regs [(3, 0x05)] machine with i := 0xFFE }))) (fun t => t.i == 0x003 && readV t 15 == 1) = true := by decide +kernel

/-- M5, FX1E_VF_NOWRAP = unchanged. -/
theorem test_add_i_from_flag :
    check (step (place 0x200 0xFF1E ({ regs [(15, 0x20)] machine with i := 0x100 }))) (fun t => t.i == 0x120 && readV t 15 == 0x20) = true := by decide +kernel

/-- M7. -/
theorem test_ld_f_low_nibble :
    check (step (place 0x200 0xF729 (regs [(7, 0x3A)] machine))) (fun t => t.i == 0x032) = true := by decide +kernel

/-- M8. -/
theorem test_bcd :
    check (step (place 0x200 0xF033 ({ regs [(0, 0xFE)] machine with i := 0x300 }))) (fun t => readByte t 0x300 == 2 && readByte t 0x301 == 5 && readByte t 0x302 == 4) = true := by decide +kernel

/-- M10. -/
theorem test_bcd_out_of_range :
    faults (step (place 0x200 0xF033 ({ regs [(0, 0xFE)] machine with i := 0xFFE }))) (.memOutOfRange 0x200 0xF033 0x1000) = true := by decide +kernel

/-- M14. -/
theorem test_store_regs :
    check (step (place 0x200 0xF255 ({ regs [(0, 0x01), (1, 0x02), (2, 0x03)] machine with i := 0x400 }))) (fun t => readByte t 0x400 == 1 && readByte t 0x402 == 3 && readByte t 0x403 == 0 && t.i == 0x400) = true := by decide +kernel

/-- P7, step 5. -/
theorem test_store_regs_font :
    faults (step (place 0x208 0xF255 ({ regs [(0, 0x11), (1, 0x22), (2, 0x33)] machine with i := 0x04E }))) (.fontWrite 0x208 0xF255 0x04E) = true := by decide +kernel

/-- M19. -/
theorem test_load_regs_font :
    check (step (place 0x200 0xF465 (machine))) (fun t => readV t 0 == 0xF0 && readV t 1 == 0x90 && readV t 4 == 0xF0 && readV t 5 == 0) = true := by decide +kernel

/-- M21. -/
theorem test_load_regs_out_of_range :
    faults (step (place 0x200 0xF165 ({ machine with i := 0xFFF }))) (.memOutOfRange 0x200 0xF165 0x1000) = true := by decide +kernel

/-- D1. -/
theorem test_cls :
    check (step (place 0x200 0x00E0 (lit [(5, 5)] machine))) (fun t => decide (t.disp = clearDisp) && t.redraw) = true := by decide +kernel

/-- D3. -/
theorem test_drw_clips :
    check (step (place 0x200 0xDAB2 (writeBytes { regs [(10, 0x7E), (11, 0x21)] machine with i := 0x300 } 0x300 [0xC0, 0xA0])))
      (fun t => decide (t.disp = (lit [(62, 1), (63, 1), (62, 2)] machine).disp) && readV t 15 == 0 && t.redraw) = true := by decide +kernel

/-- D10. -/
theorem test_drw_collides :
    check (step (place 0x200 0xD011 (lit [(0, 0)] (writeBytes { machine with i := 0x300 } 0x300 [0xC0]))))
      (fun t => decide (t.disp = (lit [(1, 0)] machine).disp) && readV t 15 == 1) = true := by decide +kernel

/-- K2. -/
theorem test_skp_low_nibble :
    check (step (place 0x300 0xE19E (holding [5] (regs [(1, 0x15)] machine)))) (fun t => t.pc == 0x304) = true := by decide +kernel

/-- K3. -/
theorem test_skp_not_held :
    check (step (place 0x300 0xE19E (holding [4] (regs [(1, 0x05)] machine)))) (fun t => t.pc == 0x302) = true := by decide +kernel

/-- K4. -/
theorem test_sknp :
    check (step (place 0x300 0xE1A1 (regs [(1, 0x05)] machine))) (fun t => t.pc == 0x304) = true := by decide +kernel

/-- K5. -/
theorem test_sknp_held :
    check (step (place 0x300 0xE1A1 (holding [5] (regs [(1, 0x05)] machine)))) (fun t => t.pc == 0x302) = true := by decide +kernel

/-- K6. -/
theorem test_ld_vx_dt :
    check (step (place 0x200 0xF307 ({ machine with dt := 0x3C }))) (fun t => readV t 3 == 0x3C && t.pc == 0x202) = true := by decide +kernel

/-- K7. -/
theorem test_ld_vx_k_waits :
    check (step (place 0x220 0xF20A (machine))) (fun t => t.pc == 0x220) = true := by decide +kernel

/-- K9, KEY_CHOICE = lowest. -/
theorem test_ld_vx_k_lowest :
    check (step (place 0x220 0xF20A (holding [5, 9] machine))) (fun t => readV t 2 == 5 && t.pc == 0x222) = true := by decide +kernel

/-- K10. -/
theorem test_ld_dt_vx :
    check (step (place 0x200 0xF015 (regs [(0, 0x0A)] machine))) (fun t => t.dt == 0x0A) = true := by decide +kernel

/-- T9, step 2. -/
theorem test_ld_dt_vx_loses_ticks :
    check (step (place 0x202 0xF015 { regs [(0, 0x0A)] machine with input := { quiet with now := 2 / 60 + 1 / 100 } }))
      (fun t => t.dt == 8 && t.lastTick == 2 / 60) = true := by decide +kernel

/-- K11. -/
theorem test_ld_st_vx :
    check (step (place 0x200 0xF018 (regs [(0, 0x0A)] machine))) (fun t => t.st == 0x0A) = true := by decide +kernel

/-- T5, T8. -/
theorem test_tick_is_strict :
    check (step (place 0x200 0x1200 { machine with dt := 10, st := 9, input := { quiet with now := 3 / 60 } }))
      (fun t => t.dt == 8 && t.lastTick == 2 / 60 && t.st == 9) = true := by decide +kernel

/-- T7. -/
theorem test_tick_catches_up :
    check (step (place 0x200 0x1200 { machine with dt := 1, input := { quiet with now := 10 / 60 + 1 / 1000 } }))
      (fun t => t.dt == 0 && t.lastTick == 10 / 60) = true := by decide +kernel

/-- E4. -/
theorem test_fetch_guard :
    faults (step { machine with pc := 0xFFF }) (.fetchOutOfRange 0xFFF) = true := by decide +kernel

/-- E5. -/
theorem test_fetch_last :
    check (step (place 0xFFE 0x1200 machine)) (fun t => t.pc == 0x200) = true := by decide +kernel

/-- The word a host places is the one the next step runs. -/
theorem test_fetch_word_runs :
    check (step (State.reset.withFetchWord 16 0xA300)) (fun t => t.i == 0x300) = true := by decide +kernel

/-! Witnesses: concrete states and operands that meet the hypotheses of an obligation, at the boundaries of its
clauses. -/

/-- The machine with one return address on its stack. -/
def called : State := { machine with stack := [0x206] }

def indexAt (n : Nat) : State := { regs [(0, 0xFE), (1, 2)] machine with i := BitVec.ofNat 16 n }

def unprotected (s : State) : State := { s with cfg := { s.cfg with fontProtect := .write } }

def byChange (s : State) : State := { s with cfg := { s.cfg with redrawMode := .byChange } }

def advancing (s : State) : State := { s with cfg := { s.cfg with ldstIMode := .advance } }

def limited (n : Nat) (s : State) : State := { s with cfg := { s.cfg with stackLimit := some n } }

theorem machine_running : Running machine := rfl

/-- A word no row of the opcode table covers is the encoding of no instruction. -/
theorem encode_ne_zero (i : Instr) : encode i ≠ 0x0000 := by
  intro h
  have hf := congrArg fieldO h
  cases i
  case cls | ret => exact absurd h (by decide)
  all_goals simp [encode] at hf; exact absurd hf (by decide)

theorem witness_EveryBitIsFixedOrField :
    decodeWord 0xFF65 = .ok (.ldVxMem 15) ∧ (∀ i, encode i ≠ 0x0000) ∧ Running machine ∧ fetch machine = .ok 0x0000 :=
  ⟨by decide, encode_ne_zero, rfl, by decide +kernel⟩

theorem witness_IllegalWordsAreThoseListed :
    Running machine ∧ fetch machine = .ok 0x0000 ∧ illegalClass 0x0000 = some .family0 :=
  ⟨rfl, by decide +kernel, by decide⟩

theorem witness_FetchIsBigEndianAndGuarded :
    Running { machine with pc := 0xFFF } ∧ ({ machine with pc := 0xFFF } : State).pc.toNat + 1 > 0xFFF ∧
      ({ machine with pc := 0xFFE } : State).pc.toNat + 1 ≤ 0xFFF :=
  ⟨rfl, by decide, by decide⟩

theorem witness_StepRunsDecodedInstruction :
    Running (place 0xFFE 0x6A42 machine) ∧ (place 0xFFE 0x6A42 machine).pc.toNat + 1 ≤ 0xFFF ∧
      decodeWord (wordOfBytes (readByte (place 0xFFE 0x6A42 machine) 0xFFE) (readByte (place 0xFFE 0x6A42 machine) 0xFFF))
        = .ok (.ldImm 10 0x42) :=
  ⟨rfl, by decide +kernel, by decide +kernel⟩

theorem witness_ReturnPopsStack : called.stack = [] ++ [0x206] ∧ machine.stack = [] :=
  ⟨rfl, rfl⟩

/-- An unbounded stack, a bounded one with room, and a full one (of limit 1, and of limit 0). -/
theorem witness_CallPushesReturn :
    machine.cfg.stackLimit ≠ some machine.stack.length ∧ (limited 1 machine).cfg.stackLimit ≠ some machine.stack.length ∧
      (limited 1 called).cfg.stackLimit = some called.stack.length ∧
      (limited 0 machine).cfg.stackLimit = some machine.stack.length := by
  decide +kernel

/-- Every skip with its condition true, and with it false. -/
theorem witness_SkipsAddTwoWhenTrue :
    (readV machine 1 = 0 ∧ ¬ readV machine 1 = 1) ∧ (readV machine 1 = readV machine 2) ∧
      (readV (indexAt 0) 0 ≠ readV (indexAt 0) 1) ∧ Held (holding [15] machine) 15 ∧ ¬ Held machine 15 := by
  refine ⟨by decide +kernel, by decide +kernel, by decide +kernel, ?_, ?_⟩ <;> unfold Held <;> decide +kernel

theorem witness_ReturnUndoesCall :
    ∃ t, exec (.call 0x300) machine = .next t ∧ { machine with stack := t.stack }.stack = t.stack :=
  ⟨_, rfl, rfl⟩

/-- A skip taken and one not, a jump, a call, a computed jump at the wrap, a return, a key taken and one waited for,
and an instruction that goes on to the next. -/
theorem witness_CounterAfterInstruction :
    (∃ u, exec (.seImm 1 0) (beginInstr machine) = .next u) ∧ (∃ u, exec (.seImm 1 1) (beginInstr machine) = .next u) ∧
      (∃ u, exec (.jp 0xFFF) (beginInstr machine) = .next u) ∧ (∃ u, exec (.call 0) (beginInstr machine) = .next u) ∧
      (∃ u, exec (.jpV0 0xFFF) (beginInstr (indexAt 0)) = .next u) ∧
      (∃ u, exec .ret (beginInstr called) = .next u) ∧
      (∃ u, exec (.ldVxK 2) (beginInstr (holding [5] machine)) = .next u) ∧
      (∃ u, exec (.ldVxK 2) (beginInstr machine) = .next u) ∧ ∃ u, exec .cls (beginInstr machine) = .next u :=
  ⟨⟨_, rfl⟩, ⟨_, rfl⟩, ⟨_, rfl⟩, ⟨_, rfl⟩, ⟨_, rfl⟩, ⟨_, rfl⟩, ⟨_, rfl⟩, ⟨_, rfl⟩, ⟨_, rfl⟩⟩

/-- The sum at 255 and at 256, the difference of equals and of a greater minuend, and a destination that is VF. -/
theorem witness_AddAndSubtractSetFlag :
    (readV (indexAt 0) 0).toNat + (readV (indexAt 0) 1).toNat > 255 ∧
      ¬ ((readV (indexAt 0) 0).toNat + (readV (indexAt 0) 2).toNat > 255) ∧
      (readV (indexAt 0) 0).toNat > (readV (indexAt 0) 1).toNat ∧ ¬ ((0 : Nibble) = vf) ∧ (15 : Nibble) = vf := by
  decide +kernel

theorem witness_RandomByteIsMasked : ∃ t, exec (.rnd 15 0xF0) machine = .next t :=
  ⟨_, rfl⟩

/-- The registers next to the last one loaded, and next to the one copied to. -/
theorem witness_OnlyNamedRegistersChange :
    (∃ t, exec (.ldVxMem 14) machine = .next t) ∧ writesRegister (.ldVxMem 14) 15 = false ∧
      (∃ t, exec (.ldReg 0 1) machine = .next t) ∧ writesRegister (.ldReg 0 1) 1 = false :=
  ⟨⟨_, rfl⟩, by decide, ⟨_, rfl⟩, by decide⟩

/-- The exact sum at 4096 and at 4095, with a register to keep. -/
theorem witness_AddIndexWraps :
    (indexAt 3842).i.toNat + (readV (indexAt 3842) 0).toNat ≥ 4096 ∧
      ¬ ((indexAt 3841).i.toNat + (readV (indexAt 3841) 0).toNat ≥ 4096) ∧ (0 : Nibble) ≠ vf := by
  decide +kernel

theorem machine_wf : Memory.wf machine.cfg.font machine.mem = true := rfl

/-- FX33 with its last byte at 0xFFF, with its first at 0x050, and at 0x04F without protection; at 0x04F with it; and
with its last byte at 0x1000. -/
theorem witness_BcdStoresDigits :
    Memory.wf (indexAt 4093).cfg.font (indexAt 4093).mem = true ∧ dataBase (indexAt 4093) + 3 ≤ 4096 ∧
      80 ≤ dataBase (indexAt 80) ∧ (unprotected (indexAt 79)).cfg.fontProtect ≠ .fault ∧
      dataBase (indexAt 79) < 80 ∧ (indexAt 79).cfg.fontProtect = .fault ∧ 4096 < dataBase (indexAt 4094) + 3 := by
  decide +kernel

/-- FX55 of all sixteen registers up to 0xFFF, of one at 0x050, at 0x04F with and without protection, and one byte too
far; a register stored and the last of them. -/
theorem witness_StoreRegistersAtIndex :
    Memory.wf (indexAt 4080).cfg.font (indexAt 4080).mem = true ∧ dataBase (indexAt 4080) + (15 : Nibble).toNat + 1 ≤ 4096 ∧
      80 ≤ dataBase (indexAt 80) ∧ (unprotected (indexAt 79)).cfg.fontProtect ≠ .fault ∧
      dataBase (indexAt 79) < 80 ∧ (indexAt 79).cfg.fontProtect = .fault ∧
      4096 < dataBase (indexAt 4081) + (15 : Nibble).toNat + 1 ∧ (15 : Nibble).toNat ≤ (15 : Nibble).toNat ∧
      (advancing (indexAt 4080)).cfg.ldstIMode = .advance := by
  decide +kernel

/-- FX65 of all sixteen registers up to 0xFFF, and one byte too far. -/
theorem witness_LoadRegistersFromIndex :
    dataBase (indexAt 4080) + (15 : Nibble).toNat + 1 ≤ 4096 ∧ 4096 < dataBase (indexAt 4081) + (15 : Nibble).toNat + 1 := by
  decide +kernel

def stored : State := place 0x200 0xF033 (indexAt 4093)

def storedAll : State := place 0x200 0xFF55 (indexAt 4080)

theorem witness_OnlyStoresWriteMemory :
    (check (step stored) fun t => decide (readByte t 4095 ≠ readByte stored 4095)) = true ∧
      (check (step storedAll) fun t => decide (readByte t 4080 ≠ readByte storedAll 4080)) = true := by
  decide +kernel

theorem witness_StoredCodeIsFetched :
    Memory.wf (indexAt 0x300).cfg.font (indexAt 0x300).mem = true ∧ 1 ≤ (1 : Nibble).toNat ∧
      (check (exec (.ldMemVx 1) (indexAt 0x300)) fun t =>
        decide ({ t with pc := 0x300 }.pc = (indexAt 0x300).i ∧ { t with pc := 0x300 }.mem = t.mem ∧
          { t with pc := 0x300 }.cfg.fontProtect = t.cfg.fontProtect)) = true := by
  decide +kernel

theorem witness_ProtectedFontIsNeverWritten :
    (indexAt 80).cfg.fontProtect = .fault ∧ (check (exec (.ldBVx 0) (indexAt 80)) fun _ => true) = true ∧ 79 < 80 := by
  decide +kernel

/-- Both redraw modes, with a display that changes and one that does not. -/
theorem witness_ClearScreenClearsAll :
    machine.cfg.redrawMode = .byOpcode ∧ (byChange machine).cfg.redrawMode = .byChange ∧
      pixel (lit [(63, 31)] machine).disp 63 31 = true ∧ pixel machine.disp 63 31 = false := by
  decide +kernel

/-- A one-row sprite at the corner (63, 31), its bit 7 set. -/
def corner : State := writeBytes { regs [(0, 63), (1, 31)] machine with i := 0xFFF } 0xFFF [0x80]

/-- A row that ends at 0xFFF, one that ends beyond it, no row at all with I beyond memory; a place lit on a set pixel,
and none. -/
theorem witness_DrawTogglesLitPixels :
    dataBase corner + (1 : Nibble).toNat ≤ 4096 ∧ 4096 < dataBase corner + (2 : Nibble).toNat ∧ (2 : Nibble) ≠ 0 ∧
      4096 < dataBase (indexAt 4097) ∧ drawLights corner 0 1 1 63 31 = true ∧
      pixel (lit [(63, 31)] corner).disp 63 31 = true ∧
      ∀ px py, px < 64 → py < 32 → drawLights corner 0 1 1 px py = true → pixel corner.disp px py = false :=
  ⟨by decide +kernel, by decide +kernel, by decide, by decide +kernel, by decide +kernel, by decide +kernel,
    fun px py _ _ _ => pixel_clearDisp px py⟩

/-- Drawing at the corner twice: the second draw starts from the first one's display. -/
theorem witness_DrawingTwiceRestores :
    (check (exec (.drw 0 1 1) corner) fun t =>
      decide ({ corner with disp := t.disp }.disp = t.disp ∧ { corner with disp := t.disp }.i = corner.i)) = true ∧
      ∃ px py, px < 64 ∧ py < 32 ∧ drawLights corner 0 1 1 px py = true ∧ pixel corner.disp px py = false :=
  ⟨by decide +kernel, 63, 31, by decide +kernel⟩

theorem witness_OnlyDisplayInstructionsTouchDisplay :
    (∃ t, exec (.jp 0x300) machine = .next t) ∧ isDisplayInstr (.jp 0x300) = false ∧ ∀ x y n, Instr.cls ≠ .drw x y n :=
  ⟨⟨_, rfl⟩, rfl, fun _ _ _ h => by cases h⟩

/-- A step that changes the display and one that does not, in both redraw modes. -/
theorem witness_RedrawFlagIsTruthful :
    (check (step (place 0x200 0x00E0 (lit [(5, 5)] machine))) fun t =>
      decide (t.disp ≠ (lit [(5, 5)] machine).disp)) = true ∧
      fetchDecode (place 0x200 0x00E0 machine) = .ok .cls ∧
      (check (step (place 0x200 0x00E0 (byChange machine))) fun t => decide (t.disp = machine.disp)) = true ∧
      isDisplayInstr (.jp 0x300) = false := by
  decide +kernel

/-- No key held, one held, several held, under either KEY_CHOICE. -/
theorem witness_KeyWaitTakesHeldKey :
    (∀ k, ¬ Held machine k) ∧ Held (holding [0, 15] machine) 15 ∧ Held (holding [0, 15] machine) 0 ∧
      (holding [0, 15] machine).cfg.keyChoice = .lowest ∧
      { holding [0, 15] machine with cfg := Config.standard }.cfg.keyChoice = .any := by
  unfold Held
  decide +kernel

/-- More than one TICK since last_tick, and one TICK exactly; and a step. -/
theorem witness_ReconciliationIsTheTickLoop :
    tick + 1 / 1000000 - machine.lastTick > tick ∧ ¬ tick - machine.lastTick > tick ∧
      (check (step (place 0x200 0x1200 machine)) fun _ => true) = true := by
  decide +kernel

/-- Another domain of TIME: integers that count sixtieths of a second, TICK = 1. -/
def sixtieths : TimeDomain Int where
  tick := 1
  tick_pos := by decide
  due := fun d => (d - 1).toNat
  due_le := fun d k => by
    rw [nsmul_eq_mul]
    omega

/-- The machine over them, with 10 in DT and last_tick and the last instant at 0. -/
def counting : TimedState Int :=
  { block := { place 0x200 0x1200 machine with dt := 10, st := 9 }, lastTick := 0, clock := 0 }

/-- A step of it at an instant. -/
def stepAt (n : Int) : Host.Outcome (TimedState Int) Fault Refusal :=
  stepIn sixtieths { now := n, held := Vector.replicate 16 false, rnd := 0 } counting

/-- T5, T8 in sixtieths of a second: 3 ticks elapsed take 2. -/
theorem test_tick_in_sixtieths :
    (match stepAt 3 with
      | .next t => t.block.dt == 8 && t.lastTick == 2 && t.block.st == 9 && t.block.pc == 0x200
      | _ => false) = true := by
  decide +kernel

/-- In seconds and in sixtieths of a second: more than TICK elapsed, TICK exactly, and a step that completes. -/
theorem witness_AnyTimeDomainTicksByTheLoop :
    (1 / 60 + 1 / 1000000 : Rat) - 0 > TimeDomain.standard.tick ∧ ¬ (1 / 60 : Rat) - 0 > TimeDomain.standard.tick ∧
      (2 : Int) - 0 > sixtieths.tick ∧ ¬ (1 : Int) - 0 > sixtieths.tick ∧
      (match stepAt 1 with
        | .next t => t.block.dt == 10 && t.lastTick == 0
        | _ => false) = true := by
  decide +kernel

theorem witness_SoundTimerNeverCounts :
    (check (step (place 0x200 0xF018 (indexAt 0))) fun t => decide (t.st ≠ (indexAt 0).st)) = true ∧
      ∃ s, load Config.standard [0x12] 0 = .ok s :=
  ⟨by decide +kernel, _, rfl⟩

theorem witness_InputsReachOnlyTheirInstructions :
    isKeyInstr .cls = false ∧ ∀ x nn, Instr.cls ≠ .rnd x nn :=
  ⟨rfl, fun _ _ h => by cases h⟩

theorem witness_OnlyCallAndReturnUseStack :
    (∀ nnn, Instr.cls ≠ .call nnn) ∧ Instr.cls ≠ .ret :=
  ⟨(fun _ h => by cases h), (fun h => by cases h)⟩

/-- One running machine for each kind of fault. -/
theorem witness_FaultsAreThoseListed :
    faults (step machine) (.decodeError 0x200 0x0000) = true ∧
      faults (step { machine with pc := 0xFFF }) (.fetchOutOfRange 0xFFF) = true ∧
      faults (step (place 0x200 0xD012 corner)) (.memOutOfRange 0x200 0xD012 0x1000) = true ∧
      faults (step (place 0x200 0x00EE machine)) (.stackUnderflow 0x200 0x00EE) = true ∧
      faults (step (place 0x200 0x2300 (limited 0 machine))) (.stackOverflow 0x200 0x2300) = true ∧
      faults (step (place 0x200 0xF033 (indexAt 79))) (.fontWrite 0x200 0xF033 79) = true := by
  decide +kernel

theorem witness_FaultedMachineTakesNoStep :
    { machine with fault := some (.fetchOutOfRange 0xFFF) }.fault = some (.fetchOutOfRange 0xFFF) ∧
      ∃ t, (hostLoad (some machine) Config.standard [0x12] 0).1 = some t :=
  ⟨rfl, _, rfl⟩

theorem witness_FaultDiscardsTheStep :
    Running machine ∧ machine.clock ≤ quiet.now ∧
      faults (step { machine with input := quiet }) (.decodeError 0x200 0x0000) = true := by
  unfold Running
  decide +kernel

/-- A call at the last call's very instant, and one a second before it. -/
theorem witness_StepCallRunsOneStep :
    Running (place 0x200 0x1200 machine) ∧ (place 0x200 0x1200 machine).clock ≤ quiet.now ∧
      (check (step { place 0x200 0x1200 machine with input := quiet }) fun _ => true) = true ∧
      { quiet with now := -1 }.now < machine.clock := by
  unfold Running
  decide +kernel

/-- The shortest and the longest program that load, and the lengths next to them. -/
theorem witness_LoadRejectsBySize :
    load Config.standard [] 0 = .error .emptyProgram ∧ (∃ s, load Config.standard [0x12] 0 = .ok s) ∧
      load Config.standard (List.replicate 3585 0) 0 = .error .programTooLarge ∧
      load Config.standard (List.replicate 3584 0) 0 ≠ .error .programTooLarge := by
  refine ⟨rfl, ⟨_, rfl⟩, ?_, ?_⟩
  · rw [load, List.length_replicate, if_neg (by decide), if_pos (by decide)]
  · rw [load, List.length_replicate, if_neg (by decide), if_neg (by decide)]
    intro h
    cases h

/-- The first and the last byte of each region of a loaded memory. -/
theorem witness_LoadedStateIsFresh :
    (∃ s, load Config.standard [0x12, 0x00] 0 = .ok s) ∧ 0 < 80 ∧ 79 < 80 ∧ 1 < [0x12, 0x00].length ∧
      (80 ≤ 80 ∧ 80 < 0x200) ∧ (80 ≤ 0x202 ∧ 0x200 + [0x12, 0x00].length ≤ 0x202) :=
  ⟨⟨_, rfl⟩, by decide⟩

theorem witness_LoadMeetsInvariant : ∃ s, load Config.standard [0x12] 0 = .ok s :=
  ⟨_, rfl⟩

/-- A machine that runs the jump to itself, one tick behind the call's instant. -/
def parked : State := place 0x200 0x1200 machine

theorem parked_inv : MachineInv parked where
  memCanonical := by decide +kernel
  fontIntact := by
    intro _ a ha
    exact readByte_writeBytes_other _ _ (.inl (Nat.lt_trans ha (by decide)))
  indexInRange := by decide +kernel
  indexKept := by decide +kernel
  pcInRange := by decide +kernel
  returnsInRange := by
    intro a ha
    cases ha
  depthInLimit := by
    intro n h
    cases h
  clockAhead := by decide +kernel
  tickPhase := by decide +kernel

theorem witness_StepKeepsInvariant : MachineInv parked ∧ (check (step parked) fun _ => true) = true :=
  ⟨parked_inv, by decide +kernel⟩

theorem witness_StepKeepsParameters : (check (step parked) fun _ => true) = true := by
  decide +kernel

/-- Parked at the reset PC, and at the last address a fetch can reach. -/
theorem witness_ParkedStaysParked : ParkedAt 0x200 parked ∧ ParkedAt 0xFFE (place 0xFFE 0x1FFE machine) := by
  unfold ParkedAt Running
  decide +kernel

end Sys2Proof.Tests
end

section
/-! SUPPORT. The scope family: the registers an instruction leaves alone, the reconciliation as R250's loop, and the
instants, which no instruction reads or writes. -/

namespace Sys2Proof.Machine

/-! Registers an instruction leaves alone (R15, R22) -/

theorem loadBytes_length {s : State} {a n : Nat} {bs : List Byte} (h : loadBytes s a n = .ok bs) : bs.length = n := by
  induction n generalizing a bs with
  | zero => injection h with h; simp [← h]
  | succ n ih =>
    unfold loadBytes at h
    split at h
    · cases h
    · split at h
      · cases h
      · next cs hcs => injection h with h; rw [← h, List.length_cons, ih hcs]

theorem readV_addIndexEffect_other {x r : Nibble} (s : State) (h : r ≠ vf) :
    readV (addIndexEffect x s) r = readV s r := by
  unfold addIndexEffect
  split <;> exact readV_writeV_other _ _ h

theorem readV_waitKeyEffect_other {x r : Nibble} (s : State) (h : r ≠ x) :
    readV (waitKeyEffect x s) r = readV s r := by
  unfold waitKeyEffect
  split
  · exact readV_writeV_other _ _ h
  · rfl

/-- A completed load of V0..VX keeps every register above VX (R185). -/
theorem readV_execLdVxMem_above {x r : Nibble} {s t : State} (h : execLdVxMem x s = .next t)
    (hr : x.toNat < r.toNat) : readV t r = readV s r := by
  obtain ⟨bs, hbs, rfl⟩ := execLdVxMem_next h
  have hlen : bs.length ≤ r.toNat := by rw [loadBytes_length hbs]; exact hr
  rw [readV_congr (advanceI_v _ x), readV_writeRegsFromV0, List.getElem?_eq_none hlen, Option.getD_none]

end Sys2Proof.Machine

namespace Sys2Proof

/-! The ticks due, in any domain of TIME (R251) -/

section Due

variable {T : Type} [AddCommGroup T] [LinearOrder T] [IsOrderedAddMonoid T] (time : TimeDomain T)

theorem TimeDomain.due_eq_zero {d : T} : time.due d = 0 ↔ d ≤ time.tick := by
  rw [← Nat.le_zero, time.due_le, zero_nsmul, sub_zero]

/-- While more than TICK has elapsed, one tick is due and then those of the rest (R250, R251). -/
theorem TimeDomain.due_of_tick_lt {d : T} (h : time.tick < d) : time.due d = time.due (d - time.tick) + 1 := by
  have hle (k : Nat) : time.due d ≤ k + 1 ↔ time.due (d - time.tick) ≤ k := by
    rw [time.due_le, time.due_le, succ_nsmul', ← sub_sub]
  have hpos : time.due d ≠ 0 := fun h0 => h.not_ge (time.due_eq_zero.1 h0)
  have hup := (hle _).2 le_rfl
  have hdown := (hle (time.due d - 1)).1 (by omega)
  omega

end Due

end Sys2Proof

namespace Sys2Proof.Machine

/-! The reconciliation as R250's loop, in any domain of TIME -/

/-- The first of k + 1 ticks takes 1 from a DT above 0 (R250). -/
theorem countDown_succ (dt : Byte) (k : Nat) : countDown dt (k + 1) = countDown (if dt = 0 then 0 else dt - 1) k := by
  have hfirst : (if dt = 0 then 0 else dt - 1).toNat = dt.toNat - 1 := by
    split_ifs with h
    · simp [h]
    · bv_omega
  apply BitVec.eq_of_toNat_eq
  rw [countDown_toNat, countDown_toNat, hfirst]
  omega

section Loop

variable {T : Type} [AddCommGroup T] [LinearOrder T] [IsOrderedAddMonoid T] (time : TimeDomain T)

theorem reconcile_of_tick_lt {now last : T} (dt : Byte) (h : time.tick < now - last) :
    reconcile time now last dt = reconcile time now (last + time.tick) (if dt = 0 then 0 else dt - 1) := by
  unfold reconcile
  rw [time.due_of_tick_lt h, countDown_succ, ← sub_sub, succ_nsmul', ← add_assoc]

theorem reconcile_of_le_tick {now last : T} (dt : Byte) (h : now - last ≤ time.tick) :
    reconcile time now last dt = (dt, last) := by
  unfold reconcile
  rw [time.due_eq_zero.2 h, countDown_zero, zero_nsmul, add_zero]

end Loop

/-! Instants do not reach an instruction (R29) -/

/-- The state with other instants in its fields: the call's now, last_tick and the model's clock. -/
def atInstants (now lastTick clock : Rat) (s : State) : State :=
  { s with lastTick := lastTick, clock := clock, input := { s.input with now := now } }

/-- An outcome with its next state mapped. -/
def mapNext (f : State → State) : Host.Outcome State Fault Refusal → Host.Outcome State Fault Refusal
  | .next t => .next (f t)
  | .fault r => .fault r
  | .refused q => .refused q

/-- Reads depend on the bytes alone. -/
theorem loadBytes_congr {s t : State} (h : ∀ a, readByte t a = readByte s a) (a n : Nat) :
    loadBytes t a n = loadBytes s a n := by
  induction n generalizing a with
  | zero => rfl
  | succ n ih => simp only [loadBytes, memRead, h, ih]

section MapState

variable {f : State → State}

/-- A change of the state that commutes with one store commutes with a sequence of them. -/
theorem storeBytes_map (hf : ∀ s a b, memWrite (f s) a b = (memWrite s a b).map f) (s : State) (a : Nat)
    (bs : List Byte) : storeBytes (f s) a bs = (storeBytes s a bs).map f := by
  induction bs generalizing s a with
  | nil => rfl
  | cons b bs ih =>
    unfold storeBytes
    rw [hf]
    cases memWrite s a b with
    | error c => rfl
    | ok t => exact ih t (a + 1)

/-- A change of the state that commutes with one unchecked write commutes with a sequence of them. -/
theorem writeBytes_map (hf : ∀ s a b, writeByte (f s) a b = f (writeByte s a b)) (s : State) (a : Nat)
    (bs : List Byte) : writeBytes (f s) a bs = f (writeBytes s a bs) := by
  induction bs generalizing s a with
  | nil => rfl
  | cons b bs ih => rw [writeBytes, hf, ih, writeBytes]

/-- A change of the state that keeps PC changes no fault record, and goes through to the next state. -/
theorem completeOrRaise_map {s : State} (hpc : (f s).pc = s.pc) (i : Instr) (e : Except Cause State) :
    completeOrRaise i (f s) (e.map f) = mapNext f (completeOrRaise i s e) := by
  cases e with
  | ok t => rfl
  | error c => cases c <;> simp [completeOrRaise, raiseFault, faultRecord, mapNext, Except.map, hpc]

end MapState

section Instants

variable (now lastTick clock : Rat)

theorem dataBase_atInstants (s : State) : dataBase (atInstants now lastTick clock s) = dataBase s := rfl

theorem regsUpTo_atInstants (s : State) (x : Nibble) :
    regsUpTo (atInstants now lastTick clock s) x = regsUpTo s x := rfl

theorem readByte_atInstants (s : State) (a : Nat) :
    readByte (atInstants now lastTick clock s) a = readByte s a := rfl

theorem memWrite_atInstants (s : State) (a : Nat) (b : Byte) :
    memWrite (atInstants now lastTick clock s) a b = (memWrite s a b).map (atInstants now lastTick clock) := by
  unfold memWrite
  rw [apply_ite (Except.map _), apply_ite (Except.map _)]
  rfl

theorem storeBytes_atInstants (s : State) (a : Nat) (bs : List Byte) :
    storeBytes (atInstants now lastTick clock s) a bs =
      (storeBytes s a bs).map (atInstants now lastTick clock) :=
  storeBytes_map (memWrite_atInstants now lastTick clock) s a bs

theorem loadBytes_atInstants (s : State) (a n : Nat) :
    loadBytes (atInstants now lastTick clock s) a n = loadBytes s a n :=
  loadBytes_congr (readByte_atInstants now lastTick clock s) a n

theorem advanceI_atInstants (s : State) (x : Nibble) :
    advanceI (atInstants now lastTick clock s) x = atInstants now lastTick clock (advanceI s x) := by
  unfold advanceI
  simp only [atInstants]
  split <;> rfl

theorem skipIf_atInstants (s : State) (c : Bool) :
    skipIf (atInstants now lastTick clock s) c = atInstants now lastTick clock (skipIf s c) := by
  cases c <;> rfl

theorem popPc_atInstants (s : State) :
    popPc (atInstants now lastTick clock s) = (popPc s).map (atInstants now lastTick clock) := by
  unfold popPc
  simp only [atInstants]
  split <;> rfl

theorem callEffect_atInstants (nnn : Addr) (s : State) :
    callEffect nnn (atInstants now lastTick clock s) = (callEffect nnn s).map (atInstants now lastTick clock) := by
  by_cases h : s.cfg.stackLimit = some s.stack.length <;> simp [callEffect, pushPc, atInstants, h, Except.map]

theorem drawEffect_atInstants (x y n : Nibble) (s : State) :
    drawEffect x y n (atInstants now lastTick clock s) =
      (drawEffect x y n s).map (atInstants now lastTick clock) := by
  unfold drawEffect
  rw [dataBase_atInstants, loadBytes_atInstants]
  cases loadBytes s (dataBase s) n.toNat <;> rfl

theorem storeRegsEffect_atInstants (x : Nibble) (s : State) :
    storeRegsEffect x (atInstants now lastTick clock s) =
      (storeRegsEffect x s).map (atInstants now lastTick clock) := by
  unfold storeRegsEffect
  rw [dataBase_atInstants, regsUpTo_atInstants, storeBytes_atInstants]
  cases storeBytes s (dataBase s) (regsUpTo s x) with
  | error c => rfl
  | ok t => exact congrArg Except.ok (advanceI_atInstants now lastTick clock t x)

theorem loadRegsEffect_atInstants (x : Nibble) (s : State) :
    loadRegsEffect x (atInstants now lastTick clock s) =
      (loadRegsEffect x s).map (atInstants now lastTick clock) := by
  unfold loadRegsEffect
  rw [dataBase_atInstants, loadBytes_atInstants]
  cases loadBytes s (dataBase s) (x.toNat + 1) with
  | error c => rfl
  | ok bs => exact congrArg Except.ok (advanceI_atInstants now lastTick clock (writeRegsFromV0 s bs) x)

theorem addIndexEffect_atInstants (x : Nibble) (s : State) :
    addIndexEffect x (atInstants now lastTick clock s) = atInstants now lastTick clock (addIndexEffect x s) := by
  unfold addIndexEffect
  rw [apply_ite (atInstants now lastTick clock)]
  rfl

theorem chooseKey_atInstants (s : State) : chooseKey (atInstants now lastTick clock s) = chooseKey s := rfl

theorem waitKeyEffect_atInstants (x : Nibble) (s : State) :
    waitKeyEffect x (atInstants now lastTick clock s) = atInstants now lastTick clock (waitKeyEffect x s) := by
  unfold waitKeyEffect
  rw [chooseKey_atInstants]
  split <;> rfl

/-- No instruction reads or writes an instant (R29). -/
theorem exec_atInstants (i : Instr) (s : State) :
    exec i (atInstants now lastTick clock s) = mapNext (atInstants now lastTick clock) (exec i s) := by
  have checked (e : Except Cause State) :
      completeOrRaise i (atInstants now lastTick clock s) (e.map (atInstants now lastTick clock)) =
        mapNext (atInstants now lastTick clock) (completeOrRaise i s e) := completeOrRaise_map rfl i e
  cases i
  case ret => simp only [exec, execRet, popPc_atInstants, checked]
  case call => simp only [exec, execCall, callEffect_atInstants, checked]
  case drw => simp only [exec, execDrw, drawEffect_atInstants, checked]
  case ldMemVx => simp only [exec, execLdMemVx, storeRegsEffect_atInstants, checked]
  case ldVxMem => simp only [exec, execLdVxMem, loadRegsEffect_atInstants, checked]
  case ldBVx =>
    simp only [exec, execLdBVx, storeBytes_atInstants]
    exact checked _
  case addIVx x => exact congrArg Host.Outcome.next (addIndexEffect_atInstants now lastTick clock x s)
  case ldVxK x => exact congrArg Host.Outcome.next (waitKeyEffect_atInstants now lastTick clock x s)
  case seImm | sneImm | seReg | sneReg | skp | sknp =>
    exact congrArg Host.Outcome.next (skipIf_atInstants now lastTick clock s _)
  all_goals rfl

end Instants

/-! The machine over R8's default TIME -/

/-- The machine over rational TIME is where the machine of `step` is: its instants are those of t, and its block is t
but for the arguments drawn for the next call. -/
structure InDefaultTime (t : State) (u : TimedState Rat) : Prop where
  lastTick_eq : u.lastTick = t.lastTick
  clock_eq : u.clock = t.clock
  block_eq : t = { u.block with lastTick := t.lastTick, clock := t.clock, input := t.input }

theorem InDefaultTime.redraw_eq {t : State} {u : TimedState Rat} (h : InDefaultTime t u) :
    u.block.redraw = t.redraw := by
  rw [h.block_eq]

/-- The end of a step over rational TIME: the block takes no tick of its own, and the reconciliation after it is the
one of `endStep`. -/
theorem endStep_inDefaultTime (w : State) :
    InDefaultTime (endStep w)
      (timedAfter TimeDomain.standard w.input.now w.lastTick (endStep (atInstants 0 0 0 w))) := by
  have hdt : (endStep (atInstants 0 0 0 w)).dt = w.dt := by
    have hnone : ticksDue 0 0 = 0 := ticksDue_eq_zero.2 (by norm_num)
    exact (congrArg (countDown w.dt) hnone).trans (countDown_zero w.dt)
  refine ⟨rfl, rfl, ?_⟩
  unfold timedAfter
  rw [hdt]
  rfl

/-- The step of the block begins in the state of `step` at other instants. -/
theorem beginInstr_untimed (s : State) (inp : StepInput) :
    beginInstr (untimed s inp.held inp.rnd) = atInstants 0 0 0 (beginInstr { s with input := inp }) := rfl

theorem step_of_fault {s : State} {r : Fault} (h : s.fault = some r) : step s = .fault r := by
  simp only [step, h]

theorem step_of_fetchDecode_error {s : State} {r : Fault} (hrun : s.fault = none) (h : fetchDecode s = .error r) :
    step s = .fault r := by
  simp only [step, hrun, h]

theorem step_of_fetchDecode_ok {s : State} {i : Instr} (hrun : s.fault = none) (h : fetchDecode s = .ok i) :
    step s = finishStep (exec i (beginInstr s)) := by
  simp only [step, hrun, h]

section StepIn

variable {T : Type} [AddCommGroup T] [LinearOrder T] [IsOrderedAddMonoid T] {time : TimeDomain T} {inp : TimedInput T}
  {s : TimedState T}

theorem stepIn_of_next {u : State} (h : step (untimed s.block inp.held inp.rnd) = .next u) :
    stepIn time inp s = .next (timedAfter time inp.now s.lastTick u) := by
  simp only [stepIn, h]

theorem stepIn_of_fault {r : Fault} (h : step (untimed s.block inp.held inp.rnd) = .fault r) :
    stepIn time inp s = .fault r := by
  simp only [stepIn, h]

theorem stepIn_of_refused {q : Refusal} (h : step (untimed s.block inp.held inp.rnd) = .refused q) :
    stepIn time inp s = .refused q := by
  simp only [stepIn, h]

end StepIn

/-- The block's step in which no time passes, against the step with the call's arguments: both faulted, or the
outcome of one instruction. -/
theorem step_input_cases (s : State) (inp : StepInput) :
    (∃ r, step { s with input := inp } = .fault r ∧ step (untimed s inp.held inp.rnd) = .fault r) ∨
      ∃ i, step { s with input := inp } = finishStep (exec i (beginInstr { s with input := inp })) ∧
        step (untimed s inp.held inp.rnd) =
          finishStep (mapNext (atInstants 0 0 0) (exec i (beginInstr { s with input := inp }))) := by
  obtain hrun | ⟨r, hr⟩ := Option.eq_none_or_eq_some s.fault
  · cases hd : fetchDecode s with
    | error r => exact .inl ⟨r, step_of_fetchDecode_error hrun hd, step_of_fetchDecode_error hrun hd⟩
    | ok i =>
      refine .inr ⟨i, step_of_fetchDecode_ok hrun hd, ?_⟩
      rw [← exec_atInstants, ← beginInstr_untimed]
      exact step_of_fetchDecode_ok hrun hd
  · exact .inl ⟨r, step_of_fault hr, step_of_fault hr⟩

/-- A step and the step over rational TIME fault alike, are refused alike, or both complete and agree (R8, R29). -/
theorem step_stepIn_cases (s : State) (inp : StepInput) :
    (∃ t u, step { s with input := inp } = .next t ∧ stepIn TimeDomain.standard inp.timed s.timed = .next u ∧
        InDefaultTime t u) ∨
      (∃ r, step { s with input := inp } = .fault r ∧ stepIn TimeDomain.standard inp.timed s.timed = .fault r) ∨
      ∃ q, step { s with input := inp } = .refused q ∧ stepIn TimeDomain.standard inp.timed s.timed = .refused q := by
  obtain ⟨r, hs, hu⟩ | ⟨i, hs, hu⟩ := step_input_cases s inp
  · exact .inr (.inl ⟨r, hs, stepIn_of_fault hu⟩)
  · cases he : exec i (beginInstr { s with input := inp }) with rw [he] at hs hu
    | next w =>
      obtain ⟨-, hlast, -, hinput, -⟩ := exec_own_fields he
      have hw := endStep_inDefaultTime w
      rw [hinput, hlast] at hw
      exact .inl ⟨_, _, hs, stepIn_of_next hu, hw⟩
    | fault r => exact .inr (.inl ⟨r, hs, stepIn_of_fault hu⟩)
    | refused q => exact .inr (.inr ⟨q, hs, stepIn_of_refused hu⟩)

/-- The instant of a load reaches the instants of the loaded state alone (R280, R31). -/
theorem loadedState_atInstants (cfg : Config) (p : List Byte) (t0 : Rat) :
    loadedState cfg p t0 = atInstants (t0 + |Config.freeElapsed 0|) t0 t0 (loadedState cfg p 0) := by
  unfold loadedState
  rw [← writeBytes_map (f := atInstants _ t0 t0) fun _ _ _ => rfl]
  rfl

/-- A load and the load over rational TIME fail alike, or both succeed and agree (R280, R281). -/
theorem load_loadIn_cases (cfg : Config) (p : List Byte) (t0 : Rat) :
    (∃ s u, load cfg p t0 = .ok s ∧ loadIn cfg p t0 = .ok u ∧ InDefaultTime s u) ∨
      ∃ e, load cfg p t0 = .error e ∧ loadIn cfg p t0 = .error e := by
  unfold loadIn load
  split_ifs with hempty hlarge
  · exact .inr ⟨_, rfl, rfl⟩
  · exact .inr ⟨_, rfl, rfl⟩
  · refine .inl ⟨_, _, rfl, rfl, ?_⟩
    rw [loadedState_atInstants]
    exact ⟨rfl, rfl, rfl⟩

/-- The Step calls give one result: the record of a set fault, the refusal of U17, or what the steps answer. -/
theorem stepMachineIn_timed_result (s : State) (inp : StepInput) :
    (stepMachineIn TimeDomain.standard s.timed inp.timed).2 = (stepMachine s inp).2 := by
  have hfault : s.timed.block.fault = s.fault := rfl
  have hnow : (inp.timed.now < s.timed.clock) = (inp.now < s.clock) := rfl
  unfold stepMachineIn stepMachine
  obtain hrun | ⟨r, hr⟩ := Option.eq_none_or_eq_some s.fault
  · by_cases hback : inp.now < s.clock
    · simp only [hfault, hrun, hnow, hback, if_true]
    · obtain ⟨t, u, hs, hin, hagree⟩ | ⟨r, hs, hin⟩ | ⟨q, hs, hin⟩ := step_stepIn_cases s inp <;>
        rw [hs, hin] <;> simp only [hfault, hrun, hnow, hback, if_false]
      rw [hagree.redraw_eq]
  · simp only [hfault, hr]

end Sys2Proof.Machine

end

section
/-! The settled statements of the scope family. -/

namespace Sys2Proof.Proofs

open Sys2Proof Sys2Proof.Machine

/-- Settles O19, by the arms of `exec`: what each writes to the registers, and that the write is not to `r`. -/
theorem onlyNamedRegistersChange : Obligations.OnlyNamedRegistersChange := by
  intro i s t r h hr
  cases i <;> simp only [exec] at h <;>
    simp only [writesRegister, beq_eq_false_iff_ne, Bool.or_eq_false_iff, decide_eq_false_iff_not, not_le] at hr
  case ret => obtain ⟨a, rest, -, rfl⟩ := popPc_ok (completeOrRaise_next.1 h); rfl
  case call => obtain ⟨-, rfl⟩ := callEffect_ok (completeOrRaise_next.1 h); rfl
  case drw => obtain ⟨rows, -, rfl⟩ := execDrw_next h; rw [readV_drawSprite, if_neg hr]
  case ldBVx => rw [execLdBVx_next h, writeBytes_fields]; rfl
  case ldMemVx => rw [execLdMemVx_next h, readV_congr (advanceI_v _ _), writeBytes_fields]; rfl
  case ldVxMem => exact readV_execLdVxMem_above h hr
  case addIVx => injection h with h; rw [← h, readV_addIndexEffect_other s hr]
  case ldVxK => injection h with h; rw [← h, readV_waitKeyEffect_other s hr]
  case seImm | sneImm | seReg | sneReg | skp | sknp => injection h with h; rw [← h, readV_congr (skipIf_v s _)]
  case addReg | sub | shr | subn | shl =>
    injection h with h
    rw [← h, readV_writeResultAndFlag, if_neg hr.2, if_neg hr.1]
  case ldImm | addImm | ldReg | or | and | xor | rnd | ldVxDt =>
    injection h with h
    rw [← h, readV_writeV_other s _ hr]
  case cls | jp | ldI | jpV0 | ldDtVx | ldStVx | ldFVx => injection h with h; rw [← h]; rfl

/-- Settles O37, by the number of ticks due, and the inversion of a completed step. -/
theorem anyTimeDomainTicksByTheLoop : Obligations.AnyTimeDomainTicksByTheLoop := by
  intro T _ _ _ time
  refine ⟨fun now last dt h => reconcile_of_tick_lt time dt h,
    fun now last dt h => reconcile_of_le_tick time dt (not_lt.1 h), fun inp s t h => ?_⟩
  obtain ⟨v, hstep, rfl⟩ := stepIn_next h
  obtain ⟨i, u, hdecode, hexec, rfl, hdt⟩ := step_untimed_dt hstep
  refine ⟨i, u, hdecode, hexec, ?_, rfl, rfl, rfl, rfl, rfl, rfl, rfl, rfl, rfl, rfl, rfl⟩
  rw [← hdt]
  rfl

/-- Settles O38: no instruction reads or writes an instant, so the block's own step, in which none passes, ends as
`step` does but for its timers, and these are reconciled the same way. -/
theorem defaultTimeIsRationalSeconds : Obligations.DefaultTimeIsRationalSeconds := by
  refine ⟨fun cfg p t0 => ?_, fun s inp => ?_, stepMachineIn_timed_result⟩
  · obtain ⟨s, u, hs, hu, hlast, hclock, hblock⟩ | ⟨e, hs, hu⟩ := load_loadIn_cases cfg p t0
    · rw [hs, hu]; exact ⟨hlast, hclock, hblock⟩
    · rw [hs, hu]
  · obtain ⟨t, u, hs, hu, hlast, hclock, hblock⟩ | ⟨r, hs, hu⟩ | ⟨q, hs, hu⟩ := step_stepIn_cases s inp
    · rw [hs, hu]; exact ⟨hlast, hclock, hblock⟩
    · rw [hs, hu]
    · rw [hs, hu]

/-- Settles O54, by the inversion of a completed step and what no instruction changes. -/
theorem stepKeepsParameters : Obligations.StepKeepsParameters := by
  intro s t h
  obtain ⟨i, u, hrun, -, hexec, rfl⟩ := step_next h
  obtain ⟨hcfg, -, hfault, hinput, -⟩ := exec_own_fields hexec
  refine ⟨hcfg, hfault.trans hrun, congrArg StepInput.now hinput, ?_⟩
  rw [endStep_clock, endStep_now]
  exact le_add_of_nonneg_right (abs_nonneg _)

end Sys2Proof.Proofs
end

section
/-! SUPPORT. The state family: changes of the state that go through an instruction, what an instruction leaves in PC, I,
the stack and memory, and the state a load leaves. -/

namespace Sys2Proof.Machine

/-! Changes of the state that the shared operations do not see -/

/-- A change of the state that keeps what the instructions read and commutes with the updates they make, whatever it does
to the stack, the timers and the step's arguments. -/
structure Unseen (f : State → State) : Prop where
  v_eq : ∀ s, (f s).v = s.v
  i_eq : ∀ s, (f s).i = s.i
  pc_eq : ∀ s, (f s).pc = s.pc
  mem_eq : ∀ s, (f s).mem = s.mem
  disp_eq : ∀ s, (f s).disp = s.disp
  cfg_eq : ∀ s, (f s).cfg = s.cfg
  set_v : ∀ s v, { f s with v := v } = f { s with v := v }
  set_i : ∀ s i, { f s with i := i } = f { s with i := i }
  set_pc : ∀ s pc, { f s with pc := pc } = f { s with pc := pc }
  set_mem : ∀ s mem, { f s with mem := mem } = f { s with mem := mem }
  set_disp : ∀ s disp redraw, { f s with disp := disp, redraw := redraw } = f { s with disp := disp, redraw := redraw }

namespace Unseen

variable {f : State → State} (hf : Unseen f)
include hf

theorem readV_eq (s : State) (x : Nibble) : readV (f s) x = readV s x :=
  readV_congr (hf.v_eq s) x

theorem readByte_eq (s : State) (a : Nat) : readByte (f s) a = readByte s a :=
  readByte_congr (hf.mem_eq s) (hf.cfg_eq s) a

theorem dataBase_eq (s : State) : dataBase (f s) = dataBase s :=
  congrArg BitVec.toNat (hf.i_eq s)

theorem regsUpTo_eq (s : State) (x : Nibble) : regsUpTo (f s) x = regsUpTo s x := by
  rw [regsUpTo, hf.v_eq, regsUpTo]

theorem loadBytes_eq (s : State) (a n : Nat) : loadBytes (f s) a n = loadBytes s a n :=
  loadBytes_congr (hf.readByte_eq s) a n

theorem writeV_map (s : State) (x : Nibble) (b : Byte) : writeV (f s) x b = f (writeV s x b) := by
  rw [writeV, hf.v_eq, hf.set_v, writeV]

theorem writeResultAndFlag_map (s : State) (x : Nibble) (b flag : Byte) :
    writeResultAndFlag (f s) x b flag = f (writeResultAndFlag s x b flag) := by
  rw [writeResultAndFlag, hf.writeV_map, hf.writeV_map, writeResultAndFlag]

theorem writeRegsFromV0_map (s : State) (bs : List Byte) : writeRegsFromV0 (f s) bs = f (writeRegsFromV0 s bs) := by
  rw [writeRegsFromV0, hf.v_eq, hf.set_v, writeRegsFromV0]

theorem memWrite_map (s : State) (a : Nat) (b : Byte) : memWrite (f s) a b = (memWrite s a b).map f := by
  have hwrite : writeByte (f s) a b = f (writeByte s a b) := by
    rw [writeByte, hf.set_mem, hf.mem_eq, hf.cfg_eq, writeByte]
  unfold memWrite
  rw [hf.cfg_eq, hwrite, apply_ite (Except.map f), apply_ite (Except.map f)]
  rfl

theorem storeBytes_map (s : State) (a : Nat) (bs : List Byte) :
    storeBytes (f s) a bs = (storeBytes s a bs).map f :=
  Machine.storeBytes_map hf.memWrite_map s a bs

theorem skipIf_map (s : State) (c : Bool) : skipIf (f s) c = f (skipIf s c) := by
  cases c with
  | false => rfl
  | true => exact (congrArg (fun pc => { f s with pc := pc + 2 }) (hf.pc_eq s)).trans (hf.set_pc s _)

theorem advanceI_map (s : State) (x : Nibble) : advanceI (f s) x = f (advanceI s x) := by
  unfold advanceI
  rw [hf.set_i, hf.cfg_eq, hf.i_eq]
  split <;> rfl

theorem showDisp_map (s : State) (d : Disp) : showDisp (f s) d = f (showDisp s d) := by
  unfold showDisp
  rw [hf.set_disp, hf.cfg_eq, hf.disp_eq]

theorem drawSprite_map (s : State) (x y : Nibble) (rows : List Byte) :
    drawSprite (f s) x y rows = f (drawSprite s x y rows) := by
  simp only [drawSprite, hf.disp_eq, hf.readV_eq, hf.showDisp_map, hf.writeV_map]

theorem addIndexEffect_map (s : State) (x : Nibble) : addIndexEffect x (f s) = f (addIndexEffect x s) := by
  have hsum : indexSum (f s) x = indexSum s x := by rw [indexSum, hf.i_eq, hf.readV_eq, indexSum]
  unfold addIndexEffect
  rw [hsum, hf.set_i, hf.set_i, hf.writeV_map, hf.writeV_map, hf.readV_eq, hf.cfg_eq, apply_ite f]

theorem drawEffect_map (s : State) (x y n : Nibble) : drawEffect x y n (f s) = (drawEffect x y n s).map f := by
  unfold drawEffect
  rw [hf.dataBase_eq, hf.loadBytes_eq]
  cases loadBytes s (dataBase s) n.toNat with
  | error c => rfl
  | ok rows => exact congrArg Except.ok (hf.drawSprite_map s x y rows)

theorem storeRegsEffect_map (s : State) (x : Nibble) : storeRegsEffect x (f s) = (storeRegsEffect x s).map f := by
  unfold storeRegsEffect
  rw [hf.dataBase_eq, hf.regsUpTo_eq, hf.storeBytes_map]
  cases storeBytes s (dataBase s) (regsUpTo s x) with
  | error c => rfl
  | ok t => exact congrArg Except.ok (hf.advanceI_map t x)

theorem loadRegsEffect_map (s : State) (x : Nibble) : loadRegsEffect x (f s) = (loadRegsEffect x s).map f := by
  unfold loadRegsEffect
  rw [hf.dataBase_eq, hf.loadBytes_eq]
  cases loadBytes s (dataBase s) (x.toNat + 1) with
  | error c => rfl
  | ok bs =>
    refine congrArg Except.ok ?_
    rw [hf.writeRegsFromV0_map, hf.advanceI_map]

end Unseen

/-- The instructions that read or write the stack, a timer, or the step's arguments. -/
def usesStackTimersOrInput (i : Instr) : Bool :=
  match i with
  | .ret | .call _ | .ldVxDt _ | .ldDtVx _ | .ldStVx _ | .rnd _ _ | .skp _ | .sknp _ | .ldVxK _ => true
  | _ => false

/-- Every other instruction gives the same outcome after an unseen change as before it. -/
theorem Unseen.exec_map {f : State → State} (hf : Unseen f) {i : Instr} (hi : usesStackTimersOrInput i = false)
    (s : State) : exec i (f s) = mapNext f (exec i s) := by
  have checked (e : Except Cause State) : completeOrRaise i (f s) (e.map f) = mapNext f (completeOrRaise i s e) :=
    completeOrRaise_map (hf.pc_eq s) i e
  cases i <;> simp only [exec]
  case drw => simp only [execDrw, hf.drawEffect_map, checked]
  case ldMemVx => simp only [execLdMemVx, hf.storeRegsEffect_map, checked]
  case ldVxMem => simp only [execLdVxMem, hf.loadRegsEffect_map, checked]
  case ldBVx => simp only [execLdBVx, hf.dataBase_eq, hf.readV_eq, hf.storeBytes_map, checked]
  case addIVx => simp only [execAddIVx, hf.addIndexEffect_map, mapNext]
  case cls => simp only [execCls, hf.showDisp_map, mapNext]
  case jp => simp only [execJp, hf.set_pc, mapNext]
  case jpV0 => simp only [execJpV0, hf.readV_eq, hf.set_pc, mapNext]
  case ldI => simp only [execLdI, hf.set_i, mapNext]
  case ldFVx => simp only [execLdFVx, hf.readV_eq, hf.set_i, mapNext]
  case seImm | sneImm | seReg | sneReg =>
    simp only [execSeImm, execSneImm, execSeReg, execSneReg, hf.readV_eq, hf.skipIf_map, mapNext]
  case ldImm | addImm | ldReg | or | and | xor =>
    simp only [execLdImm, execAddImm, execLdReg, execOr, execAnd, execXor, hf.readV_eq, hf.writeV_map, mapNext]
  case addReg | sub | shr | subn | shl =>
    simp only [execAddReg, execSub, execShr, execSubn, execShl, hf.readV_eq, hf.writeResultAndFlag_map, mapNext]
  all_goals simp [usesStackTimersOrInput] at hi

/-! The stack -/

/-- The state with another call stack. -/
def withStack (l : List Word) (s : State) : State :=
  { s with stack := l }

theorem withStack_unseen (l : List Word) : Unseen (withStack l) := by
  constructor <;> intros <;> rfl

/-- No instruction but a call and a return reads the stack, or writes it (R26). -/
theorem exec_withStack {i : Instr} (hcall : ∀ nnn, i ≠ .call nnn) (hret : i ≠ .ret) (l : List Word) (s : State) :
    exec i (withStack l s) = mapNext (withStack l) (exec i s) := by
  cases hi : usesStackTimersOrInput i with
  | false => exact (withStack_unseen l).exec_map hi s
  | true =>
    cases i <;> simp [usesStackTimersOrInput] at hi
    case ret => exact absurd rfl hret
    case call nnn => exact absurd rfl (hcall nnn)
    case skp | sknp => exact congrArg Host.Outcome.next ((withStack_unseen l).skipIf_map s _)
    case ldVxK x =>
      have hkey : chooseKey (withStack l s) = chooseKey s := rfl
      refine congrArg Host.Outcome.next ?_
      unfold waitKeyEffect
      rw [hkey]
      split <;> rfl
    case ldVxDt | ldDtVx | ldStVx | rnd => rfl

theorem exec_stack {i : Instr} {s t : State} (hcall : ∀ nnn, i ≠ .call nnn) (hret : i ≠ .ret)
    (h : exec i s = .next t) : t.stack = s.stack := by
  have hsame := exec_withStack hcall hret s.stack s
  rw [show withStack s.stack s = s from rfl, h] at hsame
  injection hsame with hsame
  rw [hsame]
  rfl

/-- What a completed instruction leaves on the stack: a call has pushed the address after it within the limit, a return
has popped, and any other instruction has kept it (R26, R120, R122). -/
theorem exec_stack_cases {i : Instr} {s t : State} (h : exec i s = .next t) :
    t.stack = s.stack ∨ (s.cfg.stackLimit ≠ some s.stack.length ∧ t.stack = s.stack ++ [s.pc]) ∨
      ∃ a, s.stack = t.stack ++ [a] := by
  by_cases hcall : ∃ nnn, i = .call nnn
  · obtain ⟨nnn, rfl⟩ := hcall
    obtain ⟨hlimit, rfl⟩ := callEffect_ok (completeOrRaise_next.1 h)
    exact .inr (.inl ⟨hlimit, rfl⟩)
  · by_cases hret : i = .ret
    · subst hret
      obtain ⟨a, rest, hs, rfl⟩ := popPc_ok (completeOrRaise_next.1 h)
      exact .inr (.inr ⟨a, hs⟩)
    · exact .inl (exec_stack (not_exists.1 hcall) hret h)

/-! PC -/

theorem addIndexEffect_pc (s : State) (x : Nibble) : (addIndexEffect x s).pc = s.pc := by
  unfold addIndexEffect
  split <;> rfl

/-- A skip leaves PC at the next instruction or the one after it (R128). -/
theorem skipIf_beginInstr_pc (s : State) (c : Bool) :
    (skipIf (beginInstr s) c).pc = s.pc + 2 ∨ (skipIf (beginInstr s) c).pc = s.pc + 4 := by
  cases c with
  | false => exact .inl rfl
  | true => exact .inr (by rw [skipIf_pc, if_pos rfl, beginInstr_pc, BitVec.add_assoc]; rfl)

/-- FX0A goes on when a key is held, and stays at its own address while none is (R223). -/
theorem waitKeyEffect_beginInstr_pc (s : State) (x : Nibble) :
    ((∃ k, Held s k) ∧ (waitKeyEffect x (beginInstr s)).pc = s.pc + 2) ∨
      ((∀ k, ¬ Held s k) ∧ (waitKeyEffect x (beginInstr s)).pc = s.pc) := by
  unfold waitKeyEffect
  cases h : chooseKey (beginInstr s) with
  | some k => exact .inl ⟨⟨k, chooseKey_some h⟩, rfl⟩
  | none => exact .inr ⟨fun k => Bool.eq_false_iff.1 (chooseKey_none.1 h k), BitVec.add_sub_cancel s.pc 2⟩

/-! Memory -/

/-- Reads that succeed lie below 0x1000 (R52). -/
theorem loadBytes_range {s : State} {a n : Nat} {bs : List Byte} (h : loadBytes s a n = .ok bs) (hn : n ≠ 0) :
    a + n ≤ 4096 := by
  by_contra hlarge
  rw [loadBytes_error hn (by omega)] at h
  cases h

/-- The n bytes at a lie below 0x1000, and none of them is a protected font byte (R53, R60). -/
def Storable (s : State) (a n : Nat) : Prop :=
  a + n ≤ 4096 ∧ (s.cfg.fontProtect = .fault → 80 ≤ a)

theorem storeBytes_storable {s t : State} {a : Nat} {bs : List Byte} (h : storeBytes s a bs = .ok t) (hbs : bs ≠ []) :
    Storable s a bs.length := by
  obtain ⟨hrange, hfont, -⟩ := storeBytes_ok h
  exact ⟨hrange.resolve_right hbs, fun hp => (hfont hp).resolve_right hbs⟩

theorem execLdBVx_storable {x : Nibble} {s t : State} (h : execLdBVx x s = .next t) :
    Storable s s.i.toNat (decimalDigits (readV s x)).length :=
  storeBytes_storable (completeOrRaise_next.1 h) (List.cons_ne_nil _ _)

theorem execLdMemVx_storable {x : Nibble} {s t : State} (h : execLdMemVx x s = .next t) :
    Storable s s.i.toNat (regsUpTo s x).length := by
  have hregs : regsUpTo s x ≠ [] := List.ne_nil_of_length_eq_add_one (regsUpTo_length s x)
  have h := completeOrRaise_next.1 h
  unfold storeRegsEffect at h
  split at h
  · cases h
  · next u hu => exact storeBytes_storable hu hregs

/-- What a completed instruction leaves in memory: what was there, or bytes stored where they may be. -/
theorem exec_mem_cases {i : Instr} {s t : State} (h : exec i s = .next t) :
    t.mem = s.mem ∨ ∃ a bs, Storable s a bs.length ∧ t.mem = (writeBytes s a bs).mem := by
  cases i <;> simp only [exec] at h
  case ldBVx x => exact .inr ⟨_, _, execLdBVx_storable h, congrArg State.mem (execLdBVx_next h)⟩
  case ldMemVx x =>
    exact .inr ⟨_, _, execLdMemVx_storable h, (congrArg State.mem (execLdMemVx_next h)).trans (advanceI_mem _ x)⟩
  all_goals refine .inl ?_
  case ret => obtain ⟨a, rest, -, rfl⟩ := popPc_ok (completeOrRaise_next.1 h); rfl
  case call => obtain ⟨-, rfl⟩ := callEffect_ok (completeOrRaise_next.1 h); rfl
  case drw => obtain ⟨rows, -, rfl⟩ := execDrw_next h; rfl
  case ldVxMem x => obtain ⟨bs, -, rfl⟩ := execLdVxMem_next h; rw [advanceI_mem, writeRegsFromV0_mem]
  case addIVx x => injection h with h; rw [← h, addIndexEffect]; split <;> rfl
  case ldVxK x => injection h with h; rw [← h, waitKeyEffect]; split <;> rfl
  case seImm | sneImm | seReg | sneReg | skp | sknp => injection h with h; rw [← h]; exact skipIf_mem s _
  all_goals injection h with h; subst h; rfl

theorem exec_memCanonical {i : Instr} {s t : State} (h : exec i s = .next t)
    (hwf : Memory.wf s.cfg.font s.mem = true) : Memory.wf t.cfg.font t.mem = true := by
  obtain ⟨hcfg, -⟩ := exec_own_fields h
  rw [hcfg]
  obtain hmem | ⟨a, bs, ⟨hrange, -⟩, hmem⟩ := exec_mem_cases h
  · rwa [hmem]
  · rw [hmem]; exact (writeBytes_inside hwf hrange).1

/-- No completed instruction changes a protected font byte (R60). -/
theorem exec_fontIntact {i : Instr} {s t : State} (h : exec i s = .next t) (hp : s.cfg.fontProtect = .fault)
    (hfont : FontIntact s) : FontIntact t := by
  obtain ⟨hcfg, -⟩ := exec_own_fields h
  intro a ha
  rw [hcfg, ← hfont a ha]
  obtain hmem | ⟨b, bs, ⟨-, hfree⟩, hmem⟩ := exec_mem_cases h
  · exact readByte_congr hmem hcfg a
  · have hbelow : a < b := ha.trans_le (hfree hp)
    rw [← readByte_writeBytes_other s bs (.inl hbelow)]
    refine readByte_congr hmem (hcfg.trans ?_) a
    rw [writeBytes_fields]

/-! I -/

theorem absolute_toNat (nnn : Addr) : (absolute nnn).toNat = nnn.toNat :=
  BitVec.toNat_setWidth_of_le (by decide)

/-- What an instruction may leave in I: the I before it, an address, or, under LDST_I_MODE = advance, the end of the bytes
stored or loaded (R23, R184, R185). -/
def IndexMovedTo (s : State) (i : Word) : Prop :=
  i = s.i ∨ i.toNat ≤ 0xFFF ∨ s.cfg.ldstIMode = .advance ∧ i.toNat ≤ 0x1000

theorem advanceI_index {s : State} {x : Nibble} (h : s.i.toNat + (x.toNat + 1) ≤ 4096) :
    IndexMovedTo s (advanceI s x).i := by
  unfold advanceI
  split
  · exact .inl rfl
  · next hmode =>
    refine .inr (.inr ⟨hmode, ?_⟩)
    have hx : (x.setWidth 16).toNat = x.toNat := BitVec.toNat_setWidth_of_le (by decide)
    have hone : (1 : Word).toNat = 1 := rfl
    rw [BitVec.toNat_add, BitVec.toNat_add, hx, hone]
    omega

theorem addIndexEffect_index (s : State) (x : Nibble) : (addIndexEffect x s).i.toNat ≤ 0xFFF := by
  unfold addIndexEffect
  split <;> rw [writeV_i, BitVec.toNat_ofNat] <;> omega

theorem glyphAddress_le (k : Nibble) : (glyphAddress k).toNat ≤ 0xFFF := by
  have hk := k.isLt
  rw [glyphAddress, BitVec.toNat_ofNat]
  exact (Nat.mod_le _ _).trans (by omega)

theorem exec_index {i : Instr} {s t : State} (h : exec i s = .next t) : IndexMovedTo s t.i := by
  cases i <;> simp only [exec] at h
  case ldMemVx x =>
    have hrange := (execLdMemVx_storable h).1
    rw [regsUpTo_length] at hrange
    have hstored := advanceI_index (s := writeBytes s (dataBase s) (regsUpTo s x)) (x := x)
    rw [← execLdMemVx_next h, writeBytes_fields] at hstored
    exact hstored hrange
  case ldVxMem x =>
    obtain ⟨bs, hbs, rfl⟩ := execLdVxMem_next h
    have hloaded := advanceI_index (s := writeRegsFromV0 s bs) (x := x)
    rw [IndexMovedTo, writeRegsFromV0_i, writeRegsFromV0_cfg] at hloaded
    exact hloaded (loadBytes_range hbs (Nat.succ_ne_zero _))
  case addIVx x => injection h with h; rw [← h]; exact .inr (.inl (addIndexEffect_index s x))
  case ldFVx x => injection h with h; rw [← h]; exact .inr (.inl (glyphAddress_le _))
  case ldI nnn =>
    injection h with h
    rw [← h]
    exact .inr (.inl ((absolute_toNat nnn).trans_le (Nat.le_of_lt_succ nnn.isLt)))
  all_goals refine .inl ?_
  case ret => obtain ⟨a, rest, -, rfl⟩ := popPc_ok (completeOrRaise_next.1 h); rfl
  case call => obtain ⟨-, rfl⟩ := callEffect_ok (completeOrRaise_next.1 h); rfl
  case drw => obtain ⟨rows, -, rfl⟩ := execDrw_next h; rfl
  case ldBVx => rw [execLdBVx_next h, writeBytes_fields]
  case ldVxK x => injection h with h; rw [← h, waitKeyEffect]; split <;> rfl
  case seImm | sneImm | seReg | sneReg | skp | sknp => injection h with h; rw [← h]; exact skipIf_i s _
  all_goals injection h with h; subst h; rfl

/-! The timers -/

/-- After the ticks due are taken, the timer block is at most TICK behind and not ahead (R251). -/
theorem ticksDue_phase {now last : Rat} (h : 0 ≤ now - last) :
    0 ≤ now - (last + ticksDue now last * tick) ∧ now - (last + ticksDue now last * tick) ≤ tick := by
  rw [← sub_sub]
  refine ⟨?_, ticksDue_le.1 le_rfl⟩
  cases hk : ticksDue now last with
  | zero => simpa using h
  | succ k =>
    have hmore : ¬ now - last - k * tick ≤ tick := fun hle => by
      have := ticksDue_le.2 hle
      omega
    push_cast
    linarith

/-! Loads -/

/-- The machine a load stores its program into: the state of R31, with the font and zeros in memory. -/
def emptyMachine (cfg : Config) (t0 : Rat) : State :=
  { State.reset with
    cfg := cfg
    lastTick := t0
    clock := t0
    input := { State.reset.input with now := t0 + |Config.freeElapsed 0| } }

theorem readV_emptyMachine (cfg : Config) (t0 : Rat) (r : Nibble) : readV (emptyMachine cfg t0) r = 0 :=
  Vector.getElem_replicate _

theorem unlisted_of_lt {font : Vector Byte 80} {a : Nat} (h : a < 80) : unlisted font a = font[a] :=
  dif_pos h

theorem unlisted_of_le {font : Vector Byte 80} {a : Nat} (h : 80 ≤ a) : unlisted font a = 0 :=
  dif_neg h.not_gt

section Load

variable {cfg : Config} {p : List Byte} {t0 : Rat} {s : State} (h : load cfg p t0 = .ok s)
include h

/-- A load that succeeds had a program of a size that fits, and stored it at 0x200 (R280, R281). -/
theorem load_ok : p.length ≤ 3584 ∧ s = writeBytes (emptyMachine cfg t0) 0x200 p := by
  unfold load at h
  split_ifs at h with hempty hlarge
  injection h with h
  exact ⟨not_lt.1 hlarge, h.symm⟩

theorem load_fields : s = { emptyMachine cfg t0 with mem := s.mem } := by
  rw [(load_ok h).2]
  exact writeBytes_fields _ _ _

theorem load_memCanonical : Memory.wf cfg.font s.mem = true := by
  obtain ⟨hlen, rfl⟩ := load_ok h
  exact (writeBytes_inside (s := emptyMachine cfg t0) rfl (by omega)).1

/-- The program's bytes stand from 0x200 on (R280). -/
theorem load_program (j : Nat) (hj : j < p.length) : readByte s (0x200 + j) = p[j] := by
  obtain ⟨hlen, rfl⟩ := load_ok h
  exact (writeBytes_inside (s := emptyMachine cfg t0) rfl (by omega)).2 j hj

/-- Outside the program a loaded memory holds the font and zeros (R31). -/
theorem load_outside {a : Nat} (ha : a < 0x200 ∨ 0x200 + p.length ≤ a) : readByte s a = unlisted cfg.font a := by
  obtain ⟨-, rfl⟩ := load_ok h
  exact readByte_writeBytes_other _ p ha

end Load

end Sys2Proof.Machine

end

section
/-! The settled statements of the state family. -/

namespace Sys2Proof.Proofs

open Sys2Proof Sys2Proof.Machine

/-- Settles O42: a change of the stack goes through the instruction. -/
theorem onlyCallAndReturnUseStack : Obligations.OnlyCallAndReturnUseStack := by
  intro i s l hcall hret
  rw [show { s with stack := l } = withStack l s from rfl, exec_withStack hcall hret]
  cases h : exec i s with
  | next t => exact ⟨exec_stack hcall hret h, rfl⟩
  | fault r => rfl
  | refused q => rfl

/-- Settles O13, by the arms of `exec`: what each does to PC. -/
theorem counterAfterInstruction : Obligations.CounterAfterInstruction := by
  intro s i u h
  cases i <;> simp only [exec] at h
  case seImm | sneImm | seReg | sneReg | skp | sknp => injection h with h; rw [← h]; exact skipIf_beginInstr_pc s _
  case jp nnn => injection h with h; rw [← h]; exact absolute_toNat nnn
  case call nnn =>
    obtain ⟨-, rfl⟩ := callEffect_ok (completeOrRaise_next.1 h)
    exact absolute_toNat nnn
  case jpV0 nnn =>
    injection h with h
    rw [← h]
    exact (BitVec.toNat_ofNat ..).trans (Nat.mod_eq_of_lt (by omega))
  case ret =>
    obtain ⟨a, rest, hs, rfl⟩ := popPc_ok (completeOrRaise_next.1 h)
    exact List.getLast?_eq_some_iff.2 ⟨rest, hs⟩
  case ldVxK x => injection h with h; rw [← h]; exact waitKeyEffect_beginInstr_pc s x
  case drw => obtain ⟨rows, -, rfl⟩ := execDrw_next h; rfl
  case ldBVx => rw [execLdBVx_next h, writeBytes_fields]; rfl
  case ldMemVx => rw [execLdMemVx_next h, advanceI_pc, writeBytes_fields]; rfl
  case ldVxMem => obtain ⟨bs, -, rfl⟩ := execLdVxMem_next h; rw [advanceI_pc, writeRegsFromV0_pc, beginInstr_pc]
  case addIVx x => injection h with h; rw [← h]; exact addIndexEffect_pc _ x
  all_goals injection h with h; subst h; rfl

/-- A completed step leaves PC in the range of R25: two or four bytes past a fetch below 0xFFF, a jump's target, or an
address from the stack. -/
theorem exec_beginInstr_pc_le {i : Instr} {s u : State} (h : exec i (beginInstr s) = .next u)
    (hpc : s.pc.toNat ≤ 0xFFE) (hstack : ∀ a ∈ s.stack, a.toNat ≤ 0x1000) : u.pc.toNat ≤ 0x1002 := by
  have htwo : (s.pc + 2).toNat ≤ 0x1002 := by bv_omega
  have hfour : (s.pc + 4).toNat ≤ 0x1002 := by bv_omega
  have hcounter := counterAfterInstruction s i u h
  cases i
  case seImm | sneImm | seReg | sneReg | skp | sknp => obtain hu | hu := hcounter <;> rw [hu] <;> assumption
  case jp nnn | call nnn => exact hcounter.trans_le (by have := nnn.isLt; omega)
  case jpV0 => exact hcounter.trans_le (by omega)
  case ret => exact (hstack _ (List.mem_of_getLast? hcounter)).trans (by decide)
  case ldVxK => obtain ⟨-, hu⟩ | ⟨-, hu⟩ := hcounter <;> rw [hu] <;> omega
  all_goals exact (congrArg BitVec.toNat hcounter).trans_le htwo

/-- A completed instruction keeps the return addresses in range, given that the one a call pushes is (R25). -/
theorem exec_returnsInRange {i : Instr} {s t : State} (h : exec i s = .next t) (hpc : s.pc.toNat ≤ 0x1000)
    (hstack : ∀ a ∈ s.stack, a.toNat ≤ 0x1000) : ∀ a ∈ t.stack, a.toNat ≤ 0x1000 := by
  intro a ha
  obtain hkept | ⟨-, hpushed⟩ | ⟨b, hpopped⟩ := exec_stack_cases h
  · exact hstack a (hkept ▸ ha)
  · rw [hpushed, List.mem_append, List.mem_singleton] at ha
    obtain ha | rfl := ha
    · exact hstack a ha
    · exact hpc
  · exact hstack a (hpopped ▸ List.mem_append_left _ ha)

/-- A completed instruction keeps the stack within STACK_LIMIT (R26, R122). -/
theorem exec_depthInLimit {i : Instr} {s t : State} {n : Nat} (h : exec i s = .next t)
    (hn : s.cfg.stackLimit = some n) (hdepth : s.stack.length ≤ n) : t.stack.length ≤ n := by
  obtain hkept | ⟨hlimit, hpushed⟩ | ⟨b, hpopped⟩ := exec_stack_cases h
  · rwa [hkept]
  · have hne : n ≠ s.stack.length := fun he => hlimit (he ▸ hn)
    rw [hpushed, List.length_append, List.length_singleton]
    omega
  · rw [hpopped, List.length_append] at hdepth
    omega

/-- Settles O53: each clause of the invariant through the instruction, and the last two through the end of the step. -/
theorem stepKeepsInvariant : Obligations.StepKeepsInvariant := by
  intro s t hinv hstep
  obtain ⟨-, -, -, hclock⟩ := stepKeepsParameters s t hstep
  obtain ⟨i, u, -, hdecode, hexec, rfl⟩ := step_next hstep
  obtain ⟨w, hfetch, -⟩ := fetchDecode_ok hdecode
  have hpc : s.pc.toNat ≤ 0xFFE := Nat.le_of_succ_le_succ (fetch_ok hfetch).1
  obtain ⟨hcfg, hlast, -, hinput, -⟩ := exec_own_fields hexec
  have hindex := exec_index hexec
  constructor
  case memCanonical => exact exec_memCanonical (t := u) hexec hinv.memCanonical
  case fontIntact => intro hp; exact exec_fontIntact (t := u) hexec (hcfg ▸ hp) (hinv.fontIntact (hcfg ▸ hp))
  case indexInRange =>
    have := hinv.indexInRange
    obtain hu | hu | ⟨-, hu⟩ := hindex
    · rwa [endStep_i, hu]
    · exact hu.trans (by decide)
    · exact hu
  case indexKept =>
    intro hmode
    rw [endStep_cfg, hcfg] at hmode
    obtain hu | hu | ⟨hadvance, -⟩ := hindex
    · rw [endStep_i, hu]; exact hinv.indexKept hmode
    · exact hu
    · rw [hmode] at hadvance; cases hadvance
  case pcInRange => exact exec_beginInstr_pc_le (u := u) hexec hpc hinv.returnsInRange
  case returnsInRange =>
    have hnext : (beginInstr s).pc.toNat ≤ 0x1000 := by rw [beginInstr_pc]; bv_omega
    exact exec_returnsInRange (t := u) hexec hnext hinv.returnsInRange
  case depthInLimit =>
    intro n hn
    rw [endStep_cfg, hcfg] at hn
    exact exec_depthInLimit (t := u) hexec hn (hinv.depthInLimit n hn)
  case clockAhead => exact hclock
  case tickPhase =>
    rw [endStep_clock, endStep_lastTick, hlast, hinput]
    exact ticksDue_phase (hinv.tickPhase.1.trans (sub_le_sub_right hinv.clockAhead _))

/-- Settles O49: a load changes nothing but memory in the empty machine, and there stores the program alone. -/
theorem loadedStateIsFresh : Obligations.LoadedStateIsFresh := by
  intro cfg p t0 s h
  have hfields := load_fields h
  refine ⟨fun r => ?_, congrArg State.i hfields, congrArg State.pc hfields, congrArg State.stack hfields,
    congrArg State.dt hfields, congrArg State.st hfields, fun a ha => ?_, load_program h, fun a hfont ha => ?_,
    fun x y => ?_, congrArg State.lastTick hfields, congrArg State.fault hfields, congrArg State.cfg hfields,
    congrArg State.clock hfields⟩
  · rw [readV_congr (congrArg State.v hfields)]
    exact readV_emptyMachine cfg t0 r
  · rw [load_outside h (.inl (by omega)), unlisted_of_lt ha]
  · rw [load_outside h ha, unlisted_of_le hfont]
  · rw [congrArg State.disp hfields]
    exact pixel_clearDisp x y

/-- Settles O52, from the fields a load leaves. -/
theorem loadMeetsInvariant : Obligations.LoadMeetsInvariant := by
  intro cfg p t0 s h
  obtain ⟨-, hi, hpc, hstack, -, -, -, -, -, -, hlast, -, hcfg, hclock⟩ := loadedStateIsFresh cfg p t0 s h
  constructor
  case memCanonical => rw [hcfg]; exact load_memCanonical h
  case fontIntact => intro _ a ha; rw [hcfg, load_outside h (.inl (by omega))]
  case indexInRange => simp [hi]
  case indexKept => simp [hi]
  case pcInRange => simp [hpc]
  case returnsInRange => simp [hstack]
  case depthInLimit => simp [hstack]
  case clockAhead =>
    have hnow : s.input.now = t0 + |Config.freeElapsed 0| := congrArg (fun s => s.input.now) (load_fields h)
    rw [hclock, hnow]
    exact le_add_of_nonneg_right (abs_nonneg _)
  case tickPhase => rw [hclock, hlast, sub_self]; exact ⟨le_rfl, by norm_num⟩

/-- Settles O50: the one byte stored is the zero that stands there already. -/
theorem resetIsALoadedState : Obligations.ResetIsALoadedState := by
  have hempty : emptyMachine Config.standard 0 = State.reset := by
    unfold emptyMachine
    rw [zero_add]
    rfl
  have hzero : writeByte State.reset 0x200 0 = State.reset := by
    have hmem : Memory.write Config.standard.font [] 0x200 0 = [] := if_pos (unlisted_of_le (by decide)).symm
    exact congrArg (fun mem => { State.reset with mem := mem }) hmem
  change Except.ok (writeByte (emptyMachine Config.standard 0) 0x200 0) = Except.ok State.reset
  rw [hempty, hzero]

/-- Settles O51: reset is a loaded state. -/
theorem resetMeetsInvariant : Obligations.ResetMeetsInvariant :=
  loadMeetsInvariant _ _ _ _ resetIsALoadedState

end Sys2Proof.Proofs

end

section
/-! SUPPORT. The memory family: the fetch on either side of its guard, and the bytes an instruction stores. -/

namespace Sys2Proof.Machine

/-! Fetch (R54) -/

theorem fetch_of_le {s : State} (h : s.pc.toNat + 1 ≤ 0xFFF) :
    fetch s = .ok (wordOfBytes (readByte s s.pc.toNat) (readByte s (s.pc.toNat + 1))) :=
  if_neg h.not_gt

theorem fetch_of_gt {s : State} (h : s.pc.toNat + 1 > 0xFFF) : fetch s = .error (.fetchOutOfRange s.pc) :=
  if_pos h

theorem fetchDecode_of_fetch_error {s : State} {r : Fault} (h : fetch s = .error r) : fetchDecode s = .error r := by
  simp only [fetchDecode, h]

/-! The bytes stored (R51) -/

/-- The bytes an instruction stores at I, lowest address first: the digits of FX33, the registers of FX55, and none of
any other instruction. -/
def storedBytes (i : Instr) (s : State) : List Byte :=
  match i with
  | .ldBVx x => decimalDigits (readV s x)
  | .ldMemVx x => regsUpTo s x
  | _ => []

/-- What a completed instruction leaves in memory: its stored bytes at I, and nothing else changed (R51). -/
theorem exec_mem {i : Instr} {s t : State} (h : exec i s = .next t) :
    t.mem = (writeBytes s (dataBase s) (storedBytes i s)).mem := by
  cases i <;> simp only [exec] at h
  case ldBVx => rw [execLdBVx_next h, storedBytes]
  case ldMemVx => rw [execLdMemVx_next h, advanceI_mem, storedBytes]
  all_goals change t.mem = s.mem
  case ret => obtain ⟨a, rest, -, rfl⟩ := popPc_ok (completeOrRaise_next.1 h); rfl
  case call => obtain ⟨-, rfl⟩ := callEffect_ok (completeOrRaise_next.1 h); rfl
  case drw => obtain ⟨rows, -, rfl⟩ := execDrw_next h; rfl
  case ldVxMem => obtain ⟨bs, -, rfl⟩ := execLdVxMem_next h; rw [advanceI_mem, writeRegsFromV0_mem]
  case addIVx => injection h with h; rw [← h, addIndexEffect]; split <;> rfl
  case ldVxK => injection h with h; rw [← h, waitKeyEffect]; split <;> rfl
  case seImm | sneImm | seReg | sneReg | skp | sknp => injection h with h; rw [← h]; exact skipIf_mem s _
  all_goals injection h with h; subst h; rfl

theorem readByte_exec {i : Instr} {s t : State} (h : exec i s = .next t) (a : Nat) :
    readByte t a = readByte (writeBytes s (dataBase s) (storedBytes i s)) a := by
  refine readByte_congr (exec_mem h) ?_ a
  rw [writeBytes_fields]
  exact (exec_own_fields h).1

/-- A byte outside those stored reads as before (R51). -/
theorem readByte_exec_other {i : Instr} {s t : State} (h : exec i s = .next t) {a : Nat}
    (ha : a < dataBase s ∨ dataBase s + (storedBytes i s).length ≤ a) : readByte t a = readByte s a :=
  (readByte_exec h a).trans (readByte_writeBytes_other s _ ha)

/-- A completed instruction that stores anything stored it below 0x1000 and over no protected byte (R53, R60). -/
theorem exec_storable {i : Instr} {s t : State} (h : exec i s = .next t) (hi : storedBytes i s ≠ []) :
    Storable s (dataBase s) (storedBytes i s).length := by
  cases i
  case ldBVx => exact execLdBVx_storable h
  case ldMemVx => exact execLdMemVx_storable h
  all_goals exact absurd rfl hi

/-- FX55 leaves register r, up to X, at I + r (R184). -/
theorem readByte_exec_ldMemVx {x r : Nibble} {s t : State} (hwf : Memory.wf s.cfg.font s.mem = true)
    (h : exec (.ldMemVx x) s = .next t) (hr : r.toNat ≤ x.toNat) :
    readByte t (s.i.toNat + r.toNat) = readV s r := by
  have hlen : r.toNat < (regsUpTo s x).length := by rw [regsUpTo_length]; exact Nat.lt_succ_of_le hr
  obtain ⟨-, hstored⟩ := writeBytes_inside hwf (execLdMemVx_storable h).1
  rw [← regsUpTo_getElem s x r hlen, ← hstored r.toNat hlen]
  exact readByte_exec h _

end Sys2Proof.Machine

end

section
/-! The settled statements of the memory family. -/

namespace Sys2Proof.Proofs

open Sys2Proof Sys2Proof.Machine

/-- Settles O5: the fetch on either side of its guard. -/
theorem fetchIsBigEndianAndGuarded : Obligations.FetchIsBigEndianAndGuarded := by
  intro s
  constructor
  · intro h
    exact ⟨fetch_of_gt h, fun hrun => step_of_fetchDecode_error hrun (fetchDecode_of_fetch_error (fetch_of_gt h))⟩
  · intro h
    exact ⟨_, fetch_of_le h, wordOfBytes_toNat _ _⟩

/-- Settles O25: a byte that differs lies among those the instruction stores, and only FX33 and FX55 store any. -/
theorem onlyStoresWriteMemory : Obligations.OnlyStoresWriteMemory := by
  intro s t a hstep hne
  obtain ⟨i, u, -, hdecode, hexec, rfl⟩ := step_next hstep
  have hinside : s.i.toNat ≤ a ∧ a < s.i.toNat + (storedBytes i (beginInstr s)).length := by
    by_contra hout
    exact hne (readByte_exec_other hexec (by rw [dataBase, beginInstr_i]; omega))
  obtain ⟨hlow, hhigh⟩ := hinside
  cases i
  case ldBVx x => exact ⟨x, .inl ⟨hdecode, hlow, hhigh⟩⟩
  case ldMemVx x =>
    rw [storedBytes, regsUpTo_length] at hhigh
    exact ⟨x, .inr ⟨hdecode, hlow, Nat.le_of_lt_succ hhigh⟩⟩
  all_goals exact absurd hlow hhigh.not_ge

/-- Settles O26: V0 and V1 are the bytes at I and I + 1 after the store, and these are what the fetch reads. -/
theorem storedCodeIsFetched : Obligations.StoredCodeIsFetched := by
  intro x s t u hwf hx hexec hpc hmem hcfg
  obtain ⟨hrange, -⟩ := execLdMemVx_storable hexec
  rw [regsUpTo_length] at hrange
  have hfetch : u.pc.toNat + 1 ≤ 0xFFF := by rw [hpc]; omega
  have hV0 : readByte t s.i.toNat = readV s 0 := readByte_exec_ldMemVx (r := 0) hwf hexec (Nat.zero_le _)
  have hV1 : readByte t (s.i.toNat + 1) = readV s 1 := readByte_exec_ldMemVx (r := 1) hwf hexec hx
  rw [fetch_of_le hfetch, hpc, readByte_congr hmem hcfg, readByte_congr hmem hcfg, hV0, hV1]

/-- Settles O27: what an instruction stores lies above the protected font. -/
theorem protectedFontIsNeverWritten : Obligations.ProtectedFontIsNeverWritten := by
  intro i s t a hp hexec ha
  by_cases hi : storedBytes i s = []
  · exact readByte_exec_other hexec (by rw [hi, List.length_nil]; omega)
  · obtain ⟨-, hfree⟩ := exec_storable hexec hi
    exact readByte_exec_other hexec (.inl (ha.trans_le (hfree hp)))

end Sys2Proof.Proofs

end

section
/-! SUPPORT. The encoding family: the decoder and the encoder as inverses, the classes of R85 and the rows of the opcode
table in terms of the fields of R81, and the step at a word. -/

namespace Sys2Proof

/-! The decoder after the encoder (R83, R84) -/

theorem decodeWord_encode (i : Instr) : decodeWord (encode i) = .ok i := by
  cases i
  case cls | ret => rfl
  all_goals simp [decodeWord, decodeFamily8, decodeFamilyF, encode]

theorem decode_encodeBytes (i : Instr) (rest : List Byte) : decode (encodeBytes i ++ rest) = .ok (i, rest) := by
  simp [encodeBytes, decode, decodeWord_encode]

/-! The encoder after the decoder (R86) -/

theorem encode_of_decodeFamily8 {x y n : Nibble} {i : Instr} (h : decodeFamily8 x y n = .ok i) :
    encode i = formatR 0x8#4 x y n := by
  unfold decodeFamily8 at h
  split at h <;> cases h <;> rfl

theorem encode_of_decodeFamilyF {x : Nibble} {nn : Byte} {i : Instr} (h : decodeFamilyF x nn = .ok i) :
    encode i = formatI 0xF#4 x nn := by
  unfold decodeFamilyF at h
  split at h <;> cases h <;> rfl

theorem encode_of_decodeWord {w : Word} {i : Instr} (h : decodeWord w = .ok i) : encode i = w := by
  have hA := formatA_fields w
  have hI := formatI_fields w
  have hR := formatR_fields w
  unfold decodeWord at h
  split at h
  -- family 0: the two words without a field
  case h_1 =>
    split_ifs at h with hcls hret <;> cases h
    · exact hcls.symm
    · exact hret.symm
  -- families 1, 2, A, B: format A
  case h_2 ho | h_3 ho | h_11 ho | h_12 ho => cases h; rw [encode, ← ho, hA]
  -- families 3, 4, 6, 7, C: format I
  case h_4 ho | h_5 ho | h_7 ho | h_8 ho | h_13 ho => cases h; rw [encode, ← ho, hI]
  -- families 5, 9: format R with the selector 0
  case h_6 ho | h_10 ho =>
    split_ifs at h with hn
    cases h
    rw [hn, ho] at hR
    exact hR
  -- families 8, D: format R with any N
  case h_9 ho => rw [encode_of_decodeFamily8 h, ← ho, hR]
  case h_14 ho => cases h; rw [encode, ← ho, hR]
  -- families E, F: format K
  case h_15 ho =>
    split_ifs at h with h9E hA1 <;> cases h
    · rw [encode, ← ho, ← h9E, hI]
    · rw [encode, ← ho, ← hA1, hI]
  case h_16 =>
    have ho : fieldO w = 0xF#4 := by simp only [imp_false] at *; bv_omega
    rw [encode_of_decodeFamilyF h, ← ho, hI]

/-! The refusals of the decoder (R85) -/

theorem decodeFamily8_error {x y n : Nibble} {c : Illegal} (h : decodeFamily8 x y n = .error c) :
    c = .family8 ∧ n ∈ [0x8#4, 0x9#4, 0xA#4, 0xB#4, 0xC#4, 0xD#4, 0xF#4] := by
  unfold decodeFamily8 at h
  split at h <;> cases h
  clear x y
  exact ⟨rfl, by decide +revert⟩

theorem decodeFamilyF_error {x : Nibble} {nn : Byte} {c : Illegal} (h : decodeFamilyF x nn = .error c) :
    c = .familyF ∧ nn ∉ [0x07#8, 0x0A#8, 0x15#8, 0x18#8, 0x1E#8, 0x29#8, 0x33#8, 0x55#8, 0x65#8] := by
  unfold decodeFamilyF at h
  split at h <;> cases h
  refine ⟨rfl, ?_⟩
  simp only [imp_false] at *
  simp [*]

open Laws.EncodeLegal in
theorem illegalClass_encode : ∀ i : Instr, illegalClass (encode i) = none
  | .cls => cls | .ret => ret | .jp nnn => jp nnn | .call nnn => call nnn | .seImm x nn => seImm x nn
  | .sneImm x nn => sneImm x nn | .seReg x y => seReg x y | .ldImm x nn => ldImm x nn | .addImm x nn => addImm x nn
  | .ldReg x y => ldReg x y | .or x y => or x y | .and x y => and x y | .xor x y => xor x y
  | .addReg x y => addReg x y | .sub x y => sub x y | .shr x y => shr x y | .subn x y => subn x y
  | .shl x y => shl x y | .sneReg x y => sneReg x y | .ldI nnn => ldI nnn | .jpV0 nnn => jpV0 nnn
  | .rnd x nn => rnd x nn | .drw x y n => drw x y n | .skp x => skp x | .sknp x => sknp x | .ldVxDt x => ldVxDt x
  | .ldVxK x => ldVxK x | .ldDtVx x => ldDtVx x | .ldStVx x => ldStVx x | .addIVx x => addIVx x
  | .ldFVx x => ldFVx x | .ldBVx x => ldBVx x | .ldMemVx x => ldMemVx x | .ldVxMem x => ldVxMem x

theorem illegalClass_of_decodeWord_error {w : Word} {c : Illegal} (h : decodeWord w = .error c) :
    illegalClass w = some c := by
  rw [Laws.EncodeLegal.illegalClass_fields]
  unfold decodeWord at h
  split at h
  case h_1 ho => split_ifs at h with hcls hret; cases h; simp [ho, hcls, hret]
  case h_6 ho | h_10 ho => split_ifs at h with hn; cases h; simp only [ho]; exact if_pos hn
  case h_9 ho =>
    obtain ⟨rfl, hn⟩ := decodeFamily8_error h
    simp only [ho, if_pos hn]
  case h_15 ho => split_ifs at h with h9E hA1; cases h; simp [ho, h9E, hA1]
  case h_16 =>
    have ho : fieldO w = 0xF#4 := by simp only [imp_false] at *; bv_omega
    obtain ⟨rfl, hnn⟩ := decodeFamilyF_error h
    simp only [ho, if_pos hnn]
  all_goals cases h

/-- The decoder refuses a word exactly with its class of R85. -/
theorem decodeWord_error_iff {w : Word} {c : Illegal} : decodeWord w = .error c ↔ illegalClass w = some c := by
  refine ⟨illegalClass_of_decodeWord_error, fun h => ?_⟩
  cases hd : decodeWord w with
  | ok i => rw [← encode_of_decodeWord hd, illegalClass_encode] at h; cases h
  | error d => rw [illegalClass_of_decodeWord_error hd] at h; injection h with h; rw [h]

/-! The rows of the opcode table by the formats of R83 -/

/-- A row that fixes every bit. -/
def wordRow (o : Nibble) (nnn : Addr) : OpcodeRow :=
  ⟨formatA o nnn, 0xFFFF⟩

/-- A row that fixes the family alone. -/
def familyRow (o : Nibble) : OpcodeRow :=
  ⟨formatA o 0, 0xF000⟩

/-- A row that fixes the family and the selector N. -/
def selectorNRow (o n : Nibble) : OpcodeRow :=
  ⟨formatR o 0 0 n, 0xF00F⟩

/-- A row that fixes the family and the selector NN. -/
def selectorNNRow (o : Nibble) (nn : Byte) : OpcodeRow :=
  ⟨formatI o 0 nn, 0xF0FF⟩

theorem opcodeRows_eq : opcodeRows =
    [wordRow 0x0 0x0E0, wordRow 0x0 0x0EE, familyRow 0x1, familyRow 0x2, familyRow 0x3, familyRow 0x4,
      selectorNRow 0x5 0x0, familyRow 0x6, familyRow 0x7, selectorNRow 0x8 0x0, selectorNRow 0x8 0x1,
      selectorNRow 0x8 0x2, selectorNRow 0x8 0x3, selectorNRow 0x8 0x4, selectorNRow 0x8 0x5, selectorNRow 0x8 0x6,
      selectorNRow 0x8 0x7, selectorNRow 0x8 0xE, selectorNRow 0x9 0x0, familyRow 0xA, familyRow 0xB, familyRow 0xC,
      familyRow 0xD, selectorNNRow 0xE 0x9E, selectorNNRow 0xE 0xA1, selectorNNRow 0xF 0x07, selectorNNRow 0xF 0x0A,
      selectorNNRow 0xF 0x15, selectorNNRow 0xF 0x18, selectorNNRow 0xF 0x1E, selectorNNRow 0xF 0x29,
      selectorNNRow 0xF 0x33, selectorNNRow 0xF 0x55, selectorNNRow 0xF 0x65] :=
  rfl

theorem covers_iff {r : OpcodeRow} {w : Word} : r.covers w = true ↔ w &&& r.mask = r.pattern :=
  beq_iff_eq

@[simp] theorem wordRow_covers {o : Nibble} {nnn : Addr} {w : Word} :
    (wordRow o nnn).covers w = true ↔ fieldO w = o ∧ w = formatA o nnn := by
  have hmask : w &&& (wordRow o nnn).mask = w := BitVec.and_allOnes
  rw [covers_iff, hmask]
  exact ⟨fun h => ⟨by simp [h, wordRow], h⟩, And.right⟩

@[simp] theorem familyRow_covers {o : Nibble} {w : Word} : (familyRow o).covers w = true ↔ fieldO w = o := by
  have hmask : w &&& (familyRow o).mask = formatA (fieldO w) 0 := by
    ext j hj
    interval_cases j <;> simp [familyRow, formatA, fieldO]
  rw [covers_iff, hmask, familyRow]
  exact ⟨fun h => by simpa using congrArg fieldO h, fun h => by rw [h]⟩

@[simp] theorem selectorNRow_covers {o n : Nibble} {w : Word} :
    (selectorNRow o n).covers w = true ↔ fieldO w = o ∧ fieldN w = n := by
  have hmask : w &&& (selectorNRow o n).mask = formatR (fieldO w) 0 0 (fieldN w) := by
    ext j hj
    interval_cases j <;> simp [selectorNRow, formatR, fieldO, fieldN]
  rw [covers_iff, hmask, selectorNRow]
  exact ⟨fun h => ⟨by simpa using congrArg fieldO h, by simpa using congrArg fieldN h⟩,
    fun ⟨ho, hn⟩ => by rw [ho, hn]⟩

@[simp] theorem selectorNNRow_covers {o : Nibble} {nn : Byte} {w : Word} :
    (selectorNNRow o nn).covers w = true ↔ fieldO w = o ∧ fieldNN w = nn := by
  have hmask : w &&& (selectorNNRow o nn).mask = formatI (fieldO w) 0 (fieldNN w) := by
    ext j hj
    interval_cases j <;> simp [selectorNNRow, formatI, fieldO, fieldNN]
  rw [covers_iff, hmask, selectorNNRow]
  exact ⟨fun h => ⟨by simpa using congrArg fieldO h, by simpa using congrArg fieldNN h⟩,
    fun ⟨ho, hn⟩ => by rw [ho, hn]⟩

/-- The selectors of family 8 are those that R85 (c) does not list. -/
theorem mem_selectors8_iff {n : Nibble} : n ∈ [0x0#4, 0x1#4, 0x2#4, 0x3#4, 0x4#4, 0x5#4, 0x6#4, 0x7#4, 0xE#4] ↔
    n ∉ [0x8#4, 0x9#4, 0xA#4, 0xB#4, 0xC#4, 0xD#4, 0xF#4] := by
  decide +revert

/-- Some row of the opcode table covers a word exactly when R85 lists it in no class. -/
theorem wordLegal_iff {w : Word} : wordLegal w = true ↔ illegalClass w = none := by
  rw [Laws.EncodeLegal.illegalClass_fields, wordLegal, opcodeRows_eq]
  split
  -- families 0, E, F: the fixed words, and the selectors NN
  case h_1 ho | h_5 ho | h_6 ho => simp [ho, formatA, or_iff_not_imp_left]
  -- families 5, 9: the selector N is 0
  case h_2 ho | h_4 ho => simp [ho]
  -- family 8: the selectors N
  case h_3 ho => simpa [ho] using mem_selectors8_iff
  -- every other family has a row of its own
  case h_7 h0 h5 h8 h9 hE hF =>
    simp only [imp_false] at h0 h5 h8 h9 hE hF
    have ho : fieldO w ∈ [0x1#4, 0x2#4, 0x3#4, 0x4#4, 0x6#4, 0x7#4, 0xA#4, 0xB#4, 0xC#4, 0xD#4] := by
      simp only [List.mem_cons, List.not_mem_nil]
      bv_omega
    simpa [h0, h5, h8, h9, hE, hF] using ho

end Sys2Proof

namespace Sys2Proof.Machine

theorem fetchDecode_of_decodeWord_ok {s : State} {w : Word} {i : Instr} (hw : fetch s = .ok w)
    (hi : decodeWord w = .ok i) : fetchDecode s = .ok i := by
  simp only [fetchDecode, hw, hi]

/-- A running machine that fetches an illegal word faults with it (R85). -/
theorem step_of_decodeWord_error {s : State} {w : Word} {c : Illegal} (hrun : s.fault = none) (hw : fetch s = .ok w)
    (hc : decodeWord w = .error c) : step s = .fault (.decodeError s.pc w) :=
  step_of_fetchDecode_error hrun (by simp only [fetchDecode, hw, hc])

end Sys2Proof.Machine

end

section
/-! The settled statements of the encoding family. -/

namespace Sys2Proof.Proofs

open Sys2Proof Sys2Proof.Machine

/-- Settles O1, by the fields of each instruction's format. -/
theorem decodeOfEncode : Obligations.DecodeOfEncode :=
  fun i rest => ⟨decodeWord_encode i, decode_encodeBytes i rest⟩

/-- Settles O2: the encoder inverts the decoder, so a word that no instruction encodes to is refused. -/
theorem everyBitIsFixedOrField : Obligations.EveryBitIsFixedOrField := by
  refine ⟨fun w i => encode_of_decodeWord, fun w s hne hrun hw => ?_⟩
  cases hd : decodeWord w with
  | ok i => exact absurd (encode_of_decodeWord hd) (hne i)
  | error c => exact step_of_decodeWord_error hrun hw hd

/-- Settles O3, by the decoder's refusals and the rows of the opcode table. -/
theorem illegalWordsAreThoseListed : Obligations.IllegalWordsAreThoseListed :=
  fun _ => ⟨fun _ => decodeWord_error_iff, wordLegal_iff,
    fun _ _ hrun hw hc => step_of_decodeWord_error hrun hw (decodeWord_error_iff.2 hc)⟩

/-- Settles O4, by evaluation of the decoder. -/
theorem exampleWordsDecode : Obligations.ExampleWordsDecode := by
  unfold Obligations.ExampleWordsDecode
  decide

/-- Settles O6: no instruction changes the step's arguments, so the instant that ends the step is the call's own. -/
theorem stepRunsDecodedInstruction : Obligations.StepRunsDecodedInstruction := by
  intro s i hrun hpc hi
  rw [step_of_fetchDecode_ok hrun (fetchDecode_of_decodeWord_ok (fetch_of_le hpc) hi)]
  rw [show { s with pc := s.pc + 2, redraw := false } = beginInstr s from rfl]
  cases hexec : exec i (beginInstr s) with
  | next u =>
    obtain ⟨-, -, -, hinput, -⟩ := exec_own_fields hexec
    simp only [finishStep, endStep, hinput, beginInstr_input]
  | fault r => rfl
  | refused q => rfl

end Sys2Proof.Proofs

end

section
/-! SUPPORT. The control flow family: the frame of a changed PC and stack, what a skip leaves, and the pops and pushes
that complete or fail. -/

namespace Sys2Proof

open Machine

/-! The frame (R15) -/

theorem KeepsAllBut.refl (changed : List Part) (s : State) : KeepsAllBut changed s s where
  registers _ _ := rfl
  index _ := rfl
  counter _ := rfl
  returns _ := rfl
  delay _ := rfl
  sound _ := rfl
  bytes _ _ := rfl
  pixels _ _ _ := rfl
  flag _ := rfl
  rest := ⟨rfl, rfl, rfl, rfl, rfl, rfl, rfl⟩

theorem keepsAllBut_setPc (s : State) (a : Word) : KeepsAllBut [.pc] s { s with pc := a } :=
  { KeepsAllBut.refl [.pc] s with counter := fun h => absurd (by decide) h }

theorem keepsAllBut_setPcAndStack (s : State) (a : Word) (l : List Word) :
    KeepsAllBut [.pc, .stack] s { s with pc := a, stack := l } :=
  { KeepsAllBut.refl [.pc, .stack] s with
    counter := fun h => absurd (by decide) h
    returns := fun h => absurd (by decide) h }

theorem keepsAllBut_skipIf (s : State) (b : Bool) : KeepsAllBut [.pc] s (skipIf s b) := by
  cases b with
  | false => exact .refl _ s
  | true => exact keepsAllBut_setPc s (s.pc + 2)

/-- An instruction whose effect is `skipIf` skips exactly when the condition that its test decides holds (R128). -/
theorem skipsWhen_of_exec {i : Instr} {s : State} {b : Bool} {c : Prop} (hexec : exec i s = .next (skipIf s b))
    (htest : b = true ↔ c) : SkipsWhen i s c :=
  ⟨skipIf s b, hexec, fun hc => by rw [skipIf_pc, if_pos (htest.2 hc)],
    fun hc => by rw [skipIf_pc, if_neg (mt htest.1 hc)], keepsAllBut_skipIf s b⟩

end Sys2Proof

namespace Sys2Proof.Machine

/-! The operands of BNNN, EX9E and EXA1 -/

theorem computedTarget_toNat (nnn : Addr) (b : Byte) :
    (computedTarget nnn b).toNat = (nnn.toNat + b.toNat) % 4096 :=
  (BitVec.toNat_ofNat ..).trans (Nat.mod_eq_of_lt (by omega))

theorem lowNibble_eq (b : Byte) : lowNibble b = BitVec.ofNat 4 (b.toNat % 16) := by
  apply BitVec.eq_of_toNat_eq
  simp [lowNibble]

/-- The key that EX9E and EXA1 test is the one of VX mod 16 (R220, R221). -/
theorem keyHeld_lowNibble_iff (s : State) (b : Byte) :
    keyHeld s (lowNibble b) = true ↔ Held s (BitVec.ofNat 4 (b.toNat % 16)) := by
  rw [lowNibble_eq]
  rfl

/-! The stack (R120, R122) -/

theorem popPc_append {s : State} {a : Word} {rest : List Word} (h : s.stack = rest ++ [a]) :
    popPc s = .ok { s with pc := a, stack := rest } := by
  simp [popPc, h]

theorem popPc_nil {s : State} (h : s.stack = []) : popPc s = .error .stackUnderflow := by
  simp [popPc, h]

theorem callEffect_of_room {s : State} (nnn : Addr) (h : s.cfg.stackLimit ≠ some s.stack.length) :
    callEffect nnn s = .ok { s with pc := absolute nnn, stack := s.stack ++ [s.pc] } := by
  rw [callEffect, pushPc, if_neg h]

theorem callEffect_of_full {s : State} (nnn : Addr) (h : s.cfg.stackLimit = some s.stack.length) :
    callEffect nnn s = .error .stackOverflow := by
  rw [callEffect, pushPc, if_pos h]

theorem exec_ret_append {s : State} {a : Word} {rest : List Word} (h : s.stack = rest ++ [a]) :
    exec .ret s = .next { s with pc := a, stack := rest } :=
  completeOrRaise_next.2 (popPc_append h)

theorem exec_call_of_room {s : State} (nnn : Addr) (h : s.cfg.stackLimit ≠ some s.stack.length) :
    exec (.call nnn) s = .next { s with pc := absolute nnn, stack := s.stack ++ [s.pc] } :=
  completeOrRaise_next.2 (callEffect_of_room nnn h)

/-- What a completed call leaves on the stack (R122). -/
theorem exec_call_stack {nnn : Addr} {s t : State} (h : exec (.call nnn) s = .next t) :
    t.stack = s.stack ++ [s.pc] := by
  obtain ⟨-, rfl⟩ := callEffect_ok (completeOrRaise_next.1 h)
  rfl

end Sys2Proof.Machine

end

section
/-! The settled statements of the control flow family. -/

namespace Sys2Proof.Proofs

open Sys2Proof Sys2Proof.Machine

/-- Settles O10: each skip is `skipIf` of a test that decides its condition. -/
theorem skipsAddTwoWhenTrue : Obligations.SkipsAddTwoWhenTrue := by
  intro x y nn s
  refine ⟨⟨decodeWord_encode (.seImm x nn), ?_⟩, ⟨decodeWord_encode (.sneImm x nn), ?_⟩,
    ⟨decodeWord_encode (.seReg x y), ?_⟩, ⟨decodeWord_encode (.sneReg x y), ?_⟩,
    ⟨decodeWord_encode (.skp x), ?_⟩, ⟨decodeWord_encode (.sknp x), ?_⟩⟩
  · exact skipsWhen_of_exec rfl beq_iff_eq
  · exact skipsWhen_of_exec rfl bne_iff_ne
  · exact skipsWhen_of_exec rfl beq_iff_eq
  · exact skipsWhen_of_exec rfl bne_iff_ne
  · exact skipsWhen_of_exec rfl (keyHeld_lowNibble_iff s _)
  · refine skipsWhen_of_exec rfl ?_
    rw [← keyHeld_lowNibble_iff, Bool.not_eq_true', Bool.not_eq_true]

/-- Settles O12: the call left the old PC on top of the old stack, and the return pops it. -/
theorem returnUndoesCall : Obligations.ReturnUndoesCall := by
  intro nnn s t u hcall hstack
  have hpushed : u.stack = s.stack ++ [s.pc] := hstack.trans (exec_call_stack hcall)
  exact ⟨_, exec_ret_append hpushed, rfl, rfl⟩

/-- Settles O7: the pop of a stack with a top, and of the empty one. -/
theorem returnPopsStack : Obligations.ReturnPopsStack := by
  refine ⟨decodeWord_encode .ret, fun s => ⟨fun a rest h => ?_, fun h => ?_⟩⟩
  · exact ⟨_, exec_ret_append h, rfl, rfl, keepsAllBut_setPcAndStack s a rest⟩
  · exact completeOrRaise_fault.2 ⟨_, popPc_nil h, rfl⟩

/-- Settles O8: the target is NNN, zero-extended. -/
theorem jumpSetsPc : Obligations.JumpSetsPc :=
  fun nnn s => ⟨decodeWord_encode (.jp nnn), _, rfl, absolute_toNat nnn, keepsAllBut_setPc s _⟩

/-- Settles O9: the push onto a stack with room, and onto a full one. -/
theorem callPushesReturn : Obligations.CallPushesReturn := by
  refine fun nnn s => ⟨decodeWord_encode (.call nnn), fun h => ?_, fun h => ?_⟩
  · exact ⟨_, exec_call_of_room nnn h, absolute_toNat nnn, rfl, keepsAllBut_setPcAndStack s _ _⟩
  · exact completeOrRaise_fault.2 ⟨_, callEffect_of_full nnn h, rfl⟩

/-- Settles O11: the target is below 4096, so its 16 bits lose nothing. -/
theorem computedJumpWraps : Obligations.ComputedJumpWraps :=
  fun nnn s => ⟨decodeWord_encode (.jpV0 nnn), _, rfl, computedTarget_toNat nnn _, keepsAllBut_setPc s _⟩

end Sys2Proof.Proofs

end

section
/-! SUPPORT. The register and ALU family: the frame of a register write, what an instruction leaves whose effect is a
write of one register or of a result and its flag, and the 8-bit results and flags as numbers. -/

namespace Sys2Proof

open Machine

theorem keepsAllBut_setV (s : State) (regs : Vector Byte 16) : KeepsAllBut [.v] s { s with v := regs } :=
  { KeepsAllBut.refl [.v] s with registers := fun h => absurd (by decide) h }

theorem setsRegister_of_exec {i : Instr} {s : State} {x : Nibble} {b : Byte} {n : Nat}
    (hexec : exec i s = .next (writeV s x b)) (hb : b.toNat = n) : SetsRegister i s x n :=
  ⟨writeV s x b, hexec, by rw [readV_writeV_same, hb], fun _ hr => readV_writeV_other s b hr,
    keepsAllBut_setV s _⟩

/-- The flag is written last, so it remains also where x is VF (R14). -/
theorem setsRegisterAndFlag_of_exec {i : Instr} {s : State} {x : Nibble} {b f : Byte} {n m : Nat}
    (hexec : exec i s = .next (writeResultAndFlag s x b f)) (hb : b.toNat = n) (hf : f.toNat = m) :
    SetsRegisterAndFlag i s x n m := by
  refine ⟨writeResultAndFlag s x b f, hexec, fun hx => ?_, ?_, fun r hrx hrf => ?_, keepsAllBut_setV s _⟩
  · rw [readV_writeResultAndFlag, if_neg hx, if_pos rfl, hb]
  · rw [readV_writeResultAndFlag, if_pos rfl, hf]
  · rw [readV_writeResultAndFlag, if_neg hrf, if_neg hrx]

end Sys2Proof

namespace Sys2Proof.Machine

/-! The results and the flags as numbers (R150) -/

theorem flagByte_decide_toNat (p : Prop) [Decidable p] : (flagByte (decide p)).toNat = if p then 1 else 0 := by
  by_cases hp : p
  · rw [if_pos hp, decide_eq_true hp]; rfl
  · rw [if_neg hp, decide_eq_false hp]; rfl

theorem carryFlag_toNat (a b : Byte) : (carryFlag a b).toNat = if a.toNat + b.toNat > 255 then 1 else 0 :=
  flagByte_decide_toNat _

theorem greaterFlag_toNat (a b : Byte) : (greaterFlag a b).toNat = if a.toNat > b.toNat then 1 else 0 :=
  flagByte_decide_toNat _

theorem sum8_toNat (a b : Byte) : (sum8 a b).toNat = (a.toNat + b.toNat) % 256 :=
  BitVec.toNat_ofNat _ 8

/-- Adding 256 before the subtraction on numbers makes it the subtraction of the 8-bit words. -/
theorem difference8_eq_sub (a b : Byte) : difference8 a b = a - b := by
  apply BitVec.eq_of_toNat_eq
  rw [difference8, BitVec.toNat_ofNat, BitVec.toNat_sub]
  have := b.isLt
  congr 1
  omega

theorem ushiftRight_one_toNat (b : Byte) : (b >>> 1).toNat = b.toNat / 2 := by
  rw [BitVec.toNat_ushiftRight, Nat.shiftRight_eq_div_pow, pow_one]

theorem shiftLeft_one_toNat (b : Byte) : (b <<< 1).toNat = b.toNat * 2 % 256 := by
  rw [BitVec.toNat_shiftLeft, Nat.shiftLeft_eq, pow_one]

theorem shiftedOutRight_toNat (b : Byte) : (shiftedOutRight b).toNat = b.toNat % 2 :=
  (BitVec.toNat_and b 1).trans (Nat.and_one_is_mod _)

/-- Bit 7 of a byte is its quotient by 128, which the mask leaves alone. -/
theorem shiftedOutLeft_toNat (b : Byte) : (shiftedOutLeft b).toNat = b.toNat / 128 := by
  have hquot : (b >>> 7).toNat = b.toNat / 128 := by
    rw [BitVec.toNat_ushiftRight, Nat.shiftRight_eq_div_pow]
  have hbit : b.toNat / 128 < 2 := by omega
  calc (shiftedOutLeft b).toNat = (b >>> 7).toNat % 2 := shiftedOutRight_toNat (b >>> 7)
    _ = b.toNat / 128 := by rw [hquot, Nat.mod_eq_of_lt hbit]

end Sys2Proof.Machine

end

section
/-! The settled statements of the register and ALU family. -/

namespace Sys2Proof.Proofs

open Sys2Proof Sys2Proof.Machine

/-- Settles O14: each of the three writes one register. -/
theorem loadsAndAddImmediate : Obligations.LoadsAndAddImmediate := by
  intro x y nn s
  refine ⟨⟨decodeWord_encode (.ldImm x nn), ?_⟩, ⟨decodeWord_encode (.addImm x nn), ?_⟩,
    ⟨decodeWord_encode (.ldReg x y), ?_⟩⟩
  · exact setsRegister_of_exec rfl rfl
  · exact setsRegister_of_exec rfl (sum8_toNat _ _)
  · exact setsRegister_of_exec rfl rfl

/-- Settles O15: each of the three writes one register, and the bitwise operations on bytes are those on numbers. -/
theorem logicLeavesFlag : Obligations.LogicLeavesFlag := by
  intro x y s
  refine ⟨⟨decodeWord_encode (.or x y), ?_⟩, ⟨decodeWord_encode (.and x y), ?_⟩,
    ⟨decodeWord_encode (.xor x y), ?_⟩⟩
  · exact setsRegister_of_exec rfl (BitVec.toNat_or _ _)
  · exact setsRegister_of_exec rfl (BitVec.toNat_and _ _)
  · exact setsRegister_of_exec rfl (BitVec.toNat_xor _ _)

/-- Settles O16: each of the three writes a result and then its flag, both computed from the old operands. -/
theorem addAndSubtractSetFlag : Obligations.AddAndSubtractSetFlag := by
  intro x y s
  refine ⟨⟨decodeWord_encode (.addReg x y), ?_⟩, ⟨decodeWord_encode (.sub x y), ?_⟩,
    ⟨decodeWord_encode (.subn x y), ?_⟩⟩
  · exact setsRegisterAndFlag_of_exec rfl (sum8_toNat _ _) (carryFlag_toNat _ _)
  · exact setsRegisterAndFlag_of_exec rfl (congrArg _ (difference8_eq_sub _ _)) (greaterFlag_toNat _ _)
  · exact setsRegisterAndFlag_of_exec rfl (congrArg _ (difference8_eq_sub _ _)) (greaterFlag_toNat _ _)

/-- Settles O17: both write the shifted VY and then the bit shifted out of it. -/
theorem shiftsTakeVyAndSetFlag : Obligations.ShiftsTakeVyAndSetFlag := by
  intro x y s
  refine ⟨⟨decodeWord_encode (.shr x y), ?_⟩, ⟨decodeWord_encode (.shl x y), ?_⟩⟩
  · exact setsRegisterAndFlag_of_exec rfl (ushiftRight_one_toNat _) (shiftedOutRight_toNat _)
  · exact setsRegisterAndFlag_of_exec rfl (shiftLeft_one_toNat _) (shiftedOutLeft_toNat _)

/-- Settles O18: the register written holds the masked byte, and a mask meets its complement nowhere. -/
theorem randomByteIsMasked : Obligations.RandomByteIsMasked := by
  refine fun x nn s => ⟨decodeWord_encode (.rnd x nn), setsRegister_of_exec rfl rfl, fun t h => ?_⟩
  obtain rfl : writeV s x (s.input.rnd &&& nn) = t := by injection h
  rw [readV_writeV_same, BitVec.and_assoc, BitVec.and_not_self]
  exact BitVec.and_zero

end Sys2Proof.Proofs

end

section
/-! SUPPORT. The index and memory family: frames one after the other, I as a number, and the stores and loads at I that
complete or fail. -/

namespace Sys2Proof

open Machine

/-! The frame (R15) -/

/-- Two changes one after the other change what either of them may. -/
theorem KeepsAllBut.trans {first second : List Part} {s t u : State} (hst : KeepsAllBut first s t)
    (htu : KeepsAllBut second t u) : KeepsAllBut (first ++ second) s u := by
  have apart {p : Part} (h : p ∉ first ++ second) : p ∉ first ∧ p ∉ second := by
    rwa [List.mem_append, not_or] at h
  exact
    { registers := fun h r => (htu.registers (apart h).2 r).trans (hst.registers (apart h).1 r)
      index := fun h => (htu.index (apart h).2).trans (hst.index (apart h).1)
      counter := fun h => (htu.counter (apart h).2).trans (hst.counter (apart h).1)
      returns := fun h => (htu.returns (apart h).2).trans (hst.returns (apart h).1)
      delay := fun h => (htu.delay (apart h).2).trans (hst.delay (apart h).1)
      sound := fun h => (htu.sound (apart h).2).trans (hst.sound (apart h).1)
      bytes := fun h a => (htu.bytes (apart h).2 a).trans (hst.bytes (apart h).1 a)
      pixels := fun h x y => (htu.pixels (apart h).2 x y).trans (hst.pixels (apart h).1 x y)
      flag := fun h => (htu.flag (apart h).2).trans (hst.flag (apart h).1)
      rest := by simp only [htu.rest, hst.rest, and_self] }

theorem keepsAllBut_setI (s : State) (i : Word) : KeepsAllBut [.i] s { s with i := i } :=
  { KeepsAllBut.refl [.i] s with index := fun h => absurd (by decide) h }

theorem keepsAllBut_addIndexEffect (s : State) (x : Nibble) : KeepsAllBut [.i, .v] s (addIndexEffect x s) := by
  unfold addIndexEffect
  split <;> exact (keepsAllBut_setI s _).trans (keepsAllBut_setV _ _)

theorem keepsAllBut_writeRegsFromV0 (s : State) (bs : List Byte) : KeepsAllBut [.v] s (writeRegsFromV0 s bs) :=
  keepsAllBut_setV s _

theorem keepsAllBut_advanceI (s : State) (x : Nibble) : KeepsAllBut [.i] s (advanceI s x) := by
  unfold advanceI
  split
  · exact .refl _ s
  · exact keepsAllBut_setI s _

theorem keepsAllBut_writeBytes (s : State) (a : Nat) (bs : List Byte) : KeepsAllBut [.mem] s (writeBytes s a bs) := by
  rw [writeBytes_fields]
  exact { KeepsAllBut.refl [.mem] s with bytes := fun h => absurd (by decide) h }

end Sys2Proof

namespace Sys2Proof.Machine

/-! I as a number (R182, R184, R185) -/

theorem lowNibble_toNat (b : Byte) : (lowNibble b).toNat = b.toNat % 16 := by
  rw [lowNibble_eq, BitVec.toNat_ofNat, Nat.mod_mod]

theorem glyphAddress_toNat (k : Nibble) : (glyphAddress k).toNat = 5 * k.toNat := by
  rw [glyphAddress, BitVec.toNat_ofNat]
  omega

/-- The advance past bytes that lie below 0x1000 loses nothing in the 16 bits of I. -/
theorem advanceI_toNat {s : State} {x : Nibble} (h : s.i.toNat + x.toNat + 1 ≤ 4096) :
    (advanceI s x).i.toNat =
      (match s.cfg.ldstIMode with | .unchanged => s.i.toNat | .advance => s.i.toNat + x.toNat + 1) := by
  unfold advanceI
  cases s.cfg.ldstIMode with
  | unchanged => rfl
  | advance =>
    have hx : (x.setWidth 16).toNat = x.toNat := BitVec.toNat_setWidth_of_le (by decide)
    have hone : (1 : Word).toNat = 1 := rfl
    change (s.i + x.setWidth 16 + 1).toNat = s.i.toNat + x.toNat + 1
    rw [BitVec.toNat_add, BitVec.toNat_add, hx, hone]
    omega

/-! FX1E (R181) -/

/-- A sum below 4096 is its own remainder. -/
theorem addIndexEffect_toNat (s : State) (x : Nibble) : (addIndexEffect x s).i.toNat = indexSum s x % 4096 := by
  unfold addIndexEffect
  split <;> rw [writeV_i, BitVec.toNat_ofNat] <;> omega

theorem readV_addIndexEffect_vf (s : State) (x : Nibble) :
    readV (addIndexEffect x s) vf =
      if indexSum s x ≥ 4096 then 1 else noWrapFlag s.cfg.fx1eVfNowrap (readV s vf) := by
  unfold addIndexEffect
  split <;> exact readV_writeV_same _ _ _

/-! The digits of FX33 (R183) -/

theorem decimalDigits_toNat (b : Byte) :
    (decimalDigits b).map BitVec.toNat = [b.toNat / 100, b.toNat / 10 % 10, b.toNat % 10] := by
  have := b.isLt
  simp only [decimalDigits, List.map_cons, List.map_nil, BitVec.toNat_ofNat, List.cons.injEq, and_true]
  omega

/-! Stores at I (R53, R57, R60) -/

theorem storedBytes_length_le (i : Instr) (s : State) : (storedBytes i s).length ≤ 16 := by
  cases i
  case ldBVx x => rw [storedBytes, decimalDigits_length]; decide
  case ldMemVx x => rw [storedBytes, regsUpTo_length]; exact x.isLt
  all_goals exact Nat.zero_le _

/-- A byte stored is what memory holds there after the instruction. -/
theorem readByte_exec_stored {i : Instr} {s t : State} (hwf : Memory.wf s.cfg.font s.mem = true)
    (h : exec i s = .next t) {j : Nat} (hj : j < (storedBytes i s).length) :
    readByte t (dataBase s + j) = (storedBytes i s)[j] := by
  have hstorable := exec_storable h (List.ne_nil_of_length_pos (Nat.zero_lt_of_lt hj))
  obtain ⟨-, hstored⟩ := writeBytes_inside hwf hstorable.1
  exact (readByte_exec h _).trans (hstored j hj)

theorem exec_ldBVx_of_storable {x : Nibble} {s : State} (h : Storable s (dataBase s) 3) :
    exec (.ldBVx x) s = .next (writeBytes s (dataBase s) (decimalDigits (readV s x))) :=
  completeOrRaise_next.2 (storeBytes_succeeds h.1 h.2)

theorem exec_ldMemVx_of_storable {x : Nibble} {s : State} (h : Storable s (dataBase s) (x.toNat + 1)) :
    exec (.ldMemVx x) s = .next (advanceI (writeBytes s (dataBase s) (regsUpTo s x)) x) := by
  rw [← regsUpTo_length s x] at h
  refine completeOrRaise_next.2 ?_
  rw [storeRegsEffect, storeBytes_succeeds h.1 h.2]

/-- A store that fails is the fault of its instruction. -/
theorem exec_of_storeBytes_error {i : Instr} {s : State} {c : Cause}
    (h : storeBytes s (dataBase s) (storedBytes i s) = .error c) : exec i s = .fault (faultRecord i s c) := by
  cases i
  case ldBVx => exact completeOrRaise_fault.2 ⟨c, h, rfl⟩
  case ldMemVx x =>
    refine completeOrRaise_fault.2 ⟨c, ?_, rfl⟩
    rw [storedBytes] at h
    rw [storeRegsEffect, h]
  all_goals cases h

/-- A store to the protected font fails at its first byte (R60). -/
theorem exec_fontWrite {i : Instr} {s : State} (hi : storedBytes i s ≠ []) (ha : dataBase s < 80)
    (hp : s.cfg.fontProtect = .fault) : exec i s = .fault (faultRecord i s (.fontWrite (dataBase s))) :=
  exec_of_storeBytes_error (storeBytes_fontWrite hi ha hp)

/-- A store that runs above 0xFFF fails at the lowest such address; it is too short to begin in the font (R53). -/
theorem exec_storeOutOfRange {i : Instr} {s : State} (hi : storedBytes i s ≠ [])
    (h : 4096 < dataBase s + (storedBytes i s).length) :
    exec i s = .fault (faultRecord i s (.memOutOfRange (max (dataBase s) 4096))) := by
  have hlength := storedBytes_length_le i s
  exact exec_of_storeBytes_error (storeBytes_outOfRange hi h fun _ => by omega)

/-! Loads at I (R52, R57) -/

theorem exec_ldVxMem_of_inRange {x : Nibble} {s : State} (h : dataBase s + x.toNat + 1 ≤ 4096) :
    exec (.ldVxMem x) s = .next
      (advanceI (writeRegsFromV0 s ((List.range (x.toNat + 1)).map fun j => readByte s (dataBase s + j))) x) := by
  refine completeOrRaise_next.2 ?_
  rw [loadRegsEffect, loadBytes_ok (n := x.toNat + 1) (.inl h)]

theorem exec_ldVxMem_outOfRange {x : Nibble} {s : State} (h : 4096 < dataBase s + x.toNat + 1) :
    exec (.ldVxMem x) s = .fault (faultRecord (.ldVxMem x) s (.memOutOfRange (max (dataBase s) 4096))) := by
  refine completeOrRaise_fault.2 ⟨_, ?_, rfl⟩
  rw [loadRegsEffect, loadBytes_error (n := x.toNat + 1) (Nat.succ_ne_zero _) h]

/-- Registers below the number of bytes get the byte of their number, and the others keep theirs (R185). -/
theorem readV_writeRegsFromV0_range (s : State) (f : Nat → Byte) (n : Nat) (r : Nibble) :
    readV (writeRegsFromV0 s ((List.range n).map f)) r = if r.toNat < n then f r.toNat else readV s r := by
  rw [readV_writeRegsFromV0]
  split
  next h => simp [h]
  next h => simp [h]

end Sys2Proof.Machine

end

section
/-! The settled statements of the index and memory family. -/

namespace Sys2Proof.Proofs

open Sys2Proof Sys2Proof.Machine

/-- Settles O22: the three digits are the bytes stored, and a store that fails does so at its lowest failing address. -/
theorem bcdStoresDigits : Obligations.BcdStoresDigits := by
  refine fun x s hwf => ⟨decodeWord_encode (.ldBVx x), fun hrange hfont => ?_, fun ha hp => ?_, fun hlarge => ?_⟩
  · have hexec := exec_ldBVx_of_storable (x := x) ⟨hrange, hfont⟩
    have hdigits := decimalDigits_toNat (readV s x)
    simp only [decimalDigits, List.map_cons, List.map_nil, List.cons.injEq, and_true] at hdigits
    obtain ⟨hhundreds, htens, hones⟩ := hdigits
    refine ⟨_, hexec, ?_, ?_, ?_, fun c hc => readByte_exec_other hexec hc, keepsAllBut_writeBytes s _ _⟩
    · exact (congrArg _ (readByte_exec_stored hwf hexec (j := 0) (by decide : 0 < 3))).trans hhundreds
    · exact (congrArg _ (readByte_exec_stored hwf hexec (j := 1) (by decide : 1 < 3))).trans htens
    · exact (congrArg _ (readByte_exec_stored hwf hexec (j := 2) (by decide : 2 < 3))).trans hones
  · exact exec_fontWrite (List.cons_ne_nil _ _) ha hp
  · exact exec_storeOutOfRange (i := .ldBVx x) (List.cons_ne_nil _ _) hlarge

/-- Settles O23: the registers are the bytes stored, and a store that fails does so at its lowest failing address. -/
theorem storeRegistersAtIndex : Obligations.StoreRegistersAtIndex := by
  intro x s hwf
  have hlength : (storedBytes (.ldMemVx x) s).length = x.toNat + 1 := regsUpTo_length s x
  have hsome : storedBytes (.ldMemVx x) s ≠ [] := List.ne_nil_of_length_eq_add_one hlength
  refine ⟨decodeWord_encode (.ldMemVx x), fun hrange hfont => ?_, fun ha hp => ?_, fun hlarge => ?_⟩
  · have hexec := exec_ldMemVx_of_storable (x := x) ⟨hrange, hfont⟩
    have hkeep := keepsAllBut_writeBytes s (dataBase s) (regsUpTo s x)
    refine ⟨_, hexec, fun r hr => readByte_exec_ldMemVx hwf hexec hr, fun c hc => ?_, ?_,
      hkeep.trans (keepsAllBut_advanceI _ x)⟩
    · exact readByte_exec_other hexec (by rwa [hlength])
    · rw [writeBytes_fields]
      exact advanceI_toNat hrange
  · exact exec_fontWrite hsome ha hp
  · exact exec_storeOutOfRange hsome (by rwa [hlength])

/-- Settles O24: the bytes loaded are the first X + 1 from I on. -/
theorem loadRegistersFromIndex : Obligations.LoadRegistersFromIndex := by
  refine fun x s => ⟨decodeWord_encode (.ldVxMem x), fun hrange => ?_, fun hlarge => ?_⟩
  · refine ⟨_, exec_ldVxMem_of_inRange hrange, fun r => ?_, ?_, ?_⟩
    · rw [readV_congr (advanceI_v _ x), readV_writeRegsFromV0_range]
      simp only [Nat.lt_succ_iff]
    · have hindex (bs : List Byte) := advanceI_toNat (s := writeRegsFromV0 s bs) (x := x) hrange
      simp only [writeRegsFromV0_cfg, writeRegsFromV0_i] at hindex
      exact hindex _
    · exact (keepsAllBut_writeRegsFromV0 s _).trans (keepsAllBut_advanceI _ x)
  · exact exec_ldVxMem_outOfRange hlarge

/-- Settles O21: the sum on either side of 4096, where VF gets 1 or what FX1E_VF_NOWRAP says. -/
theorem addIndexWraps : Obligations.AddIndexWraps := by
  intro x s
  refine ⟨decodeWord_encode (.addIVx x), _, rfl, fun r hr => readV_addIndexEffect_other s hr,
    keepsAllBut_addIndexEffect s x, ?_⟩
  split
  case isTrue h => exact ⟨addIndexEffect_toNat s x, (readV_addIndexEffect_vf s x).trans (if_pos h)⟩
  case isFalse h =>
    exact ⟨(addIndexEffect_toNat s x).trans (Nat.mod_eq_of_lt (not_le.1 h)),
      (readV_addIndexEffect_vf s x).trans (if_neg h)⟩

/-- Settles O20: both addresses fit in the 16 bits of I. -/
theorem indexGetsAddressOrGlyph : Obligations.IndexGetsAddressOrGlyph := by
  refine fun nnn x s => ⟨⟨decodeWord_encode (.ldI nnn), _, rfl, absolute_toNat nnn, keepsAllBut_setI s _⟩,
    decodeWord_encode (.ldFVx x), _, rfl, ?_, keepsAllBut_setI s _⟩
  rw [glyphAddress_toNat, lowNibble_toNat]

end Sys2Proof.Proofs

end

section
/-! SUPPORT. The display family: the frame of a changed frame buffer, the draws that complete or fail, the places a
sprite lights and their collision, and instructions that do not see the frame buffer. -/

namespace Sys2Proof

open Machine

/-! The frame (R15) -/

theorem keepsAllBut_showDisp (s : State) (d : Disp) : KeepsAllBut [.disp, .redraw] s (showDisp s d) :=
  { KeepsAllBut.refl [.disp, .redraw] s with
    pixels := fun h => absurd (by decide) h
    flag := fun h => absurd (by decide) h }

theorem keepsAllBut_drawSprite (s : State) (x y : Nibble) (rows : List Byte) :
    KeepsAllBut [.v, .disp, .redraw] s (drawSprite s x y rows) :=
  { KeepsAllBut.refl [.v, .disp, .redraw] s with
    registers := fun h => absurd (by decide) h
    pixels := fun h => absurd (by decide) h
    flag := fun h => absurd (by decide) h }

end Sys2Proof

namespace Sys2Proof.Machine

/-! The redraw flag (D18) -/

theorem showDisp_redraw_of_byOpcode {s : State} (d : Disp) (h : s.cfg.redrawMode = .byOpcode) :
    (showDisp s d).redraw = true := by
  simp only [showDisp, h]

theorem showDisp_redraw_of_byChange {s : State} (d : Disp) (h : s.cfg.redrawMode = .byChange) :
    (showDisp s d).redraw = true ↔ d ≠ s.disp := by
  simp only [showDisp, h, decide_eq_true_eq]

theorem clearDisp_ne_iff (d : Disp) : clearDisp ≠ d ↔ ∃ x y, pixel d x y = true := by
  constructor
  · intro hne
    by_contra hnone
    simp only [not_exists, Bool.not_eq_true] at hnone
    exact hne (disp_ext fun x y _ _ => (pixel_clearDisp x y).trans (hnone x y).symm)
  · rintro ⟨x, y, hset⟩ rfl
    rw [pixel_clearDisp] at hset
    cases hset

/-! The rows of a sprite, and the draws that complete or fail (R52, R201) -/

/-- The N bytes at I: the rows of the sprite that DXYN draws. -/
def spriteRows (s : State) (n : Nibble) : List Byte :=
  (List.range n.toNat).map fun j => readByte s (dataBase s + j)

/-- DXYN completes exactly when its rows lie below 0x1000, if it has any, and then it draws them. -/
theorem exec_drw_next_iff {x y n : Nibble} {s t : State} : exec (.drw x y n) s = .next t ↔
    (dataBase s + n.toNat ≤ 4096 ∨ n = 0) ∧ t = drawSprite s x y (spriteRows s n) := by
  have hzero : n.toNat = 0 ↔ n = 0 := BitVec.toNat_inj (y := 0)
  rw [← hzero]
  constructor
  · intro h
    obtain ⟨rows, hrows, rfl⟩ := execDrw_next h
    have hrange : dataBase s + n.toNat ≤ 4096 ∨ n.toNat = 0 := or_iff_not_imp_right.2 (loadBytes_range hrows)
    rw [loadBytes_ok hrange] at hrows
    injection hrows with hrows
    exact ⟨hrange, by rw [← hrows, spriteRows]⟩
  · rintro ⟨hrange, rfl⟩
    refine completeOrRaise_next.2 ?_
    rw [drawEffect, loadBytes_ok hrange, spriteRows]

theorem exec_drw_outOfRange {x y n : Nibble} {s : State} (h : 4096 < dataBase s + n.toNat) (hn : n ≠ 0) :
    exec (.drw x y n) s = .fault (faultRecord (.drw x y n) s (.memOutOfRange (max (dataBase s) 4096))) := by
  refine completeOrRaise_fault.2 ⟨_, ?_, rfl⟩
  rw [drawEffect, loadBytes_error (mt (BitVec.toNat_inj (y := 0)).1 hn) h]

/-! The places lit (R201) -/

/-- The rows of a sprite at its origin light the places that DXYN would. -/
theorem spriteLights_spriteRows (s : State) (x y n : Nibble) (px py : Nat) :
    spriteLights ((readV s x).toNat % 64) ((readV s y).toNat % 32) (spriteRows s n) px py =
      drawLights s x y n px py := by
  simp only [spriteLights, drawLights, spriteRows, spriteBit, dataBase, List.getElem?_map]
  by_cases hrow : py - (readV s y).toNat % 32 < n.toNat
  · have hbelow : py < (readV s y).toNat % 32 + n.toNat := by omega
    rw [List.getElem?_range hrow]
    simp [hbelow]
  · have hout : (readV s y).toNat % 32 ≤ py → ¬ py < (readV s y).toNat % 32 + n.toNat := by omega
    rw [List.getElem?_eq_none (by simpa using hrow)]
    simp +contextual [hout]

theorem pixel_drawSprite_spriteRows (s : State) (x y n : Nibble) {px py : Nat} (hx : px < 64) (hy : py < 32) :
    pixel (drawSprite s x y (spriteRows s n)).disp px py = (drawLights s x y n px py ^^ pixel s.disp px py) := by
  rw [pixel_drawSprite s x y _ hx hy, spriteLights_spriteRows]

/-- The same sprite at the same origin lights the same places. -/
theorem drawLights_congr {x y n : Nibble} {s u : State} (hi : u.i = s.i) (hx : readV u x = readV s x)
    (hy : readV u y = readV s y) (hbytes : ∀ a, readByte u a = readByte s a) (px py : Nat) :
    drawLights u x y n px py = drawLights s x y n px py := by
  simp only [drawLights, hi, hx, hy, hbytes]

/-- A place of the grid is lit on a set pixel. -/
def Collides (s : State) (x y n : Nibble) : Prop :=
  ∃ px py, px < 64 ∧ py < 32 ∧ drawLights s x y n px py = true ∧ pixel s.disp px py = true

theorem drawRows_collision_iff (s : State) (x y n : Nibble) :
    (drawRows (s.disp, false) ((readV s x).toNat % 64) ((readV s y).toNat % 32) (spriteRows s n)).2 = true ↔
      Collides s x y n := by
  simp only [collision_drawRows, spriteLights_spriteRows, Bool.false_eq_true, false_or, Collides]

theorem readV_drawSprite_vf_of_collides {s : State} {x y n : Nibble} (h : Collides s x y n) :
    readV (drawSprite s x y (spriteRows s n)) vf = 1 := by
  rw [readV_drawSprite, if_pos rfl, (drawRows_collision_iff s x y n).2 h]
  rfl

theorem readV_drawSprite_vf_of_not_collides {s : State} {x y n : Nibble} (h : ¬ Collides s x y n) :
    readV (drawSprite s x y (spriteRows s n)) vf = 0 := by
  rw [readV_drawSprite, if_pos rfl, Bool.eq_false_iff.2 (mt (drawRows_collision_iff s x y n).1 h)]
  rfl

theorem readV_drawSprite_vf_eq_one_iff {s : State} {x y n : Nibble} :
    readV (drawSprite s x y (spriteRows s n)) vf = 1 ↔ Collides s x y n := by
  refine ⟨fun hone => ?_, readV_drawSprite_vf_of_collides⟩
  by_contra h
  rw [readV_drawSprite_vf_of_not_collides h] at hone
  exact absurd hone (by decide)

/-! Instructions that do not see the frame buffer (R202) -/

/-- The state with another frame buffer. -/
def withDisp (d : Disp) (s : State) : State :=
  { s with disp := d }

section WithDisp

variable (d : Disp) (s : State)

theorem storeBytes_withDisp (a : Nat) (bs : List Byte) :
    storeBytes (withDisp d s) a bs = (storeBytes s a bs).map (withDisp d) := by
  refine storeBytes_map (fun s a b => ?_) s a bs
  unfold memWrite
  rw [apply_ite (Except.map _), apply_ite (Except.map _)]
  rfl

theorem loadBytes_withDisp (a n : Nat) : loadBytes (withDisp d s) a n = loadBytes s a n :=
  loadBytes_congr (s := s) (t := withDisp d s) (fun _ => rfl) a n

theorem dataBase_withDisp : dataBase (withDisp d s) = dataBase s := rfl

theorem regsUpTo_withDisp (x : Nibble) : regsUpTo (withDisp d s) x = regsUpTo s x := rfl

theorem advanceI_withDisp (x : Nibble) : advanceI (withDisp d s) x = withDisp d (advanceI s x) := by
  unfold advanceI
  simp only [withDisp]
  split <;> rfl

theorem skipIf_withDisp (c : Bool) : skipIf (withDisp d s) c = withDisp d (skipIf s c) := by
  cases c <;> rfl

theorem popPc_withDisp : popPc (withDisp d s) = (popPc s).map (withDisp d) := by
  unfold popPc
  simp only [withDisp]
  split <;> rfl

theorem callEffect_withDisp (nnn : Addr) :
    callEffect nnn (withDisp d s) = (callEffect nnn s).map (withDisp d) := by
  by_cases h : s.cfg.stackLimit = some s.stack.length <;> simp [callEffect, pushPc, withDisp, h, Except.map]

theorem storeRegsEffect_withDisp (x : Nibble) :
    storeRegsEffect x (withDisp d s) = (storeRegsEffect x s).map (withDisp d) := by
  unfold storeRegsEffect
  rw [dataBase_withDisp, regsUpTo_withDisp, storeBytes_withDisp]
  cases storeBytes s (dataBase s) (regsUpTo s x) with
  | error c => rfl
  | ok t => exact congrArg Except.ok (advanceI_withDisp d t x)

theorem loadRegsEffect_withDisp (x : Nibble) :
    loadRegsEffect x (withDisp d s) = (loadRegsEffect x s).map (withDisp d) := by
  unfold loadRegsEffect
  rw [dataBase_withDisp, loadBytes_withDisp]
  cases loadBytes s (dataBase s) (x.toNat + 1) with
  | error c => rfl
  | ok bs => exact congrArg Except.ok (advanceI_withDisp d (writeRegsFromV0 s bs) x)

theorem addIndexEffect_withDisp (x : Nibble) :
    addIndexEffect x (withDisp d s) = withDisp d (addIndexEffect x s) := by
  unfold addIndexEffect
  rw [apply_ite (withDisp d)]
  rfl

theorem waitKeyEffect_withDisp (x : Nibble) : waitKeyEffect x (withDisp d s) = withDisp d (waitKeyEffect x s) := by
  have hkey : chooseKey (withDisp d s) = chooseKey s := rfl
  unfold waitKeyEffect
  rw [hkey]
  split <;> rfl

end WithDisp

/-- No instruction but 00E0 and DXYN reads the frame buffer, or writes it (R202). -/
theorem exec_withDisp {i : Instr} (hi : isDisplayInstr i = false) (d : Disp) (s : State) :
    exec i (withDisp d s) = mapNext (withDisp d) (exec i s) := by
  have checked (e : Except Cause State) :
      completeOrRaise i (withDisp d s) (e.map (withDisp d)) = mapNext (withDisp d) (completeOrRaise i s e) :=
    completeOrRaise_map rfl i e
  cases i
  case cls | drw => cases hi
  case ret => simp only [exec, execRet, popPc_withDisp, checked]
  case call => simp only [exec, execCall, callEffect_withDisp, checked]
  case ldBVx =>
    simp only [exec, execLdBVx, dataBase_withDisp, storeBytes_withDisp]
    exact checked _
  case ldMemVx => simp only [exec, execLdMemVx, storeRegsEffect_withDisp, checked]
  case ldVxMem => simp only [exec, execLdVxMem, loadRegsEffect_withDisp, checked]
  case addIVx x => exact congrArg Host.Outcome.next (addIndexEffect_withDisp d s x)
  case ldVxK x => exact congrArg Host.Outcome.next (waitKeyEffect_withDisp d s x)
  case seImm | sneImm | seReg | sneReg | skp | sknp =>
    exact congrArg Host.Outcome.next (skipIf_withDisp d s _)
  all_goals rfl

theorem exec_disp {i : Instr} {s t : State} (hi : isDisplayInstr i = false) (h : exec i s = .next t) :
    t.disp = s.disp := by
  have hsame := exec_withDisp hi s.disp s
  rw [show withDisp s.disp s = s from rfl, h] at hsame
  injection hsame with hsame
  rw [hsame]
  rfl

end Sys2Proof.Machine

end

section
/-! The settled statements of the display family. -/

namespace Sys2Proof.Proofs

open Sys2Proof Sys2Proof.Machine

/-- Settles O29: the rows read are drawn, and the places they light are those of DXYN; rows that run above 0xFFF fail at
the lowest such address. -/
theorem drawTogglesLitPixels : Obligations.DrawTogglesLitPixels := by
  refine fun x y n s => ⟨decodeWord_encode (.drw x y n), fun hrange => ?_, exec_drw_outOfRange⟩
  refine ⟨_, exec_drw_next_iff.2 ⟨hrange, rfl⟩, fun px py hx hy => ?_, readV_drawSprite_vf_of_collides,
    fun hclear => ?_, fun r hr => ?_, showDisp_redraw_of_byOpcode _, showDisp_redraw_of_byChange _,
    keepsAllBut_drawSprite s x y _⟩
  · rw [pixel_drawSprite_spriteRows s x y n hx hy, Bool.xor_comm]
  · refine readV_drawSprite_vf_of_not_collides ?_
    rintro ⟨px, py, hx, hy, hlit, hset⟩
    rw [hclear px py hx hy hlit] at hset
    cases hset
  · rw [readV_drawSprite, if_neg hr]

/-- Settles O30: the second draw lights the same places, so each is toggled twice, and the second collides where the
first set a pixel. -/
theorem drawingTwiceRestores : Obligations.DrawingTwiceRestores := by
  intro x y n s t u hexec hdisp hi hx hy hbytes
  obtain ⟨hrange, rfl⟩ := exec_drw_next_iff.1 hexec
  have hlights := drawLights_congr (n := n) hi hx hy hbytes
  have hfirst {px py : Nat} (hpx : px < 64) (hpy : py < 32) :
      pixel u.disp px py = (drawLights s x y n px py ^^ pixel s.disp px py) := by
    rw [hdisp, pixel_drawSprite_spriteRows s x y n hpx hpy]
  have hbase : dataBase u = dataBase s := congrArg BitVec.toNat hi
  refine ⟨_, exec_drw_next_iff.2 ⟨hbase ▸ hrange, rfl⟩, disp_ext fun px py hpx hpy => ?_, ?_⟩
  · rw [pixel_drawSprite_spriteRows u x y n hpx hpy, hlights, hfirst hpx hpy, ← Bool.xor_assoc, Bool.xor_self,
      Bool.false_xor]
  · rw [readV_drawSprite_vf_eq_one_iff]
    refine exists₂_congr fun px py => and_congr_right fun hpx => and_congr_right fun hpy => ?_
    rw [hlights]
    refine and_congr_right fun hlit => ?_
    rw [hfirst hpx hpy, hlit, Bool.true_xor, Bool.not_eq_true']

/-- Settles O31: another frame buffer goes through every other instruction, and a clear looks at the old one only to set
the redraw flag. -/
theorem onlyDisplayInstructionsTouchDisplay : Obligations.OnlyDisplayInstructionsTouchDisplay := by
  refine ⟨fun i s t h hi => exec_disp hi h, fun s => rfl, fun i s d hdraw => ?_⟩
  by_cases hcls : i = .cls
  · subst hcls
    exact ⟨rfl, .inr rfl⟩
  · have hi : isDisplayInstr i = false := by
      cases i
      case cls => exact absurd rfl hcls
      case drw x y n => exact absurd rfl (hdraw x y n)
      all_goals rfl
    rw [show { s with disp := d } = withDisp d s from rfl, exec_withDisp hi]
    cases exec i s with
    | next t => exact ⟨rfl, .inl rfl⟩
    | fault r => rfl
    | refused q => rfl

/-- Settles O28: the frame buffer left is the clear one, which differs from any that has a pixel set. -/
theorem clearScreenClearsAll : Obligations.ClearScreenClearsAll :=
  ⟨decodeWord_encode .cls, fun s => ⟨_, rfl, pixel_clearDisp, showDisp_redraw_of_byOpcode _,
    fun hmode => (showDisp_redraw_of_byChange _ hmode).trans (clearDisp_ne_iff s.disp), keepsAllBut_showDisp s _⟩⟩

end Sys2Proof.Proofs

end

section
/-! SUPPORT. The keys and timers family: the frame of a changed timer, which key FX0A takes of the held ones, and
instructions that do not see the sound timer. -/

namespace Sys2Proof

open Machine

/-! The frame (R15) -/

theorem keepsAllBut_setDt (s : State) (b : Byte) : KeepsAllBut [.dt] s { s with dt := b } :=
  { KeepsAllBut.refl [.dt] s with delay := fun h => absurd (by decide) h }

theorem keepsAllBut_setSt (s : State) (b : Byte) : KeepsAllBut [.st] s { s with st := b } :=
  { KeepsAllBut.refl [.st] s with sound := fun h => absurd (by decide) h }

end Sys2Proof

namespace Sys2Proof.Machine

/-! The key FX0A takes (R223, R254) -/

theorem mem_heldKeys_iff_held {s : State} {k : Nibble} : k ∈ heldKeys s ↔ Held s k :=
  mem_heldKeys s k

/-- The held keys are listed lowest first. -/
theorem heldKeys_sorted (s : State) : (heldKeys s).Pairwise fun j k => j.toNat ≤ k.toNat :=
  List.Pairwise.filter _ (by decide)

theorem chooseKey_of_lowest {s : State} (h : s.cfg.keyChoice = .lowest) : chooseKey s = (heldKeys s).head? := by
  rcases hkeys : heldKeys s with _ | ⟨k, _ | ⟨j, ks⟩⟩ <;> simp only [chooseKey, hkeys, h, List.head?]

/-- The draw, taken modulo the number of held keys, is the place of the key in their list (D16). -/
theorem chooseKey_of_any {s : State} (h : s.cfg.keyChoice = .any) :
    chooseKey s = (heldKeys s)[s.keyPick % (heldKeys s).length]? := by
  rcases hkeys : heldKeys s with _ | ⟨k, _ | ⟨j, ks⟩⟩ <;> simp only [chooseKey, hkeys, h]
  · rfl
  · rw [List.length_singleton, Nat.mod_one]
    rfl
  · have hplace : s.keyPick % (k :: j :: ks).length < (k :: j :: ks).length := Nat.mod_lt _ (Nat.succ_pos _)
    rw [List.getElem?_eq_getElem hplace, List.getD_eq_getElem _ _ hplace]

theorem chooseKey_eq_none_iff_held {s : State} : chooseKey s = none ↔ ∀ k, ¬ Held s k := by
  rw [chooseKey_none]
  exact forall_congr' fun _ => Bool.eq_false_iff

theorem chooseKey_le_held {s : State} {j k : Nibble} (hmode : s.cfg.keyChoice = .lowest)
    (hk : chooseKey s = some k) (hj : Held s j) : k.toNat ≤ j.toNat := by
  rw [chooseKey_of_lowest hmode] at hk
  obtain ⟨ks, hkeys⟩ := List.head?_eq_some_iff.1 hk
  have hsorted := heldKeys_sorted s
  have hmem := mem_heldKeys_iff_held.2 hj
  rw [hkeys] at hsorted hmem
  obtain rfl | hmem := List.mem_cons.1 hmem
  · exact le_rfl
  · exact List.rel_of_pairwise_cons hsorted hmem

/-- Under KEY_CHOICE = any each held key is the one some draw takes: the draw that is its place in the list (D16). -/
theorem exists_keyPick_of_held {s : State} {k : Nibble} (hmode : s.cfg.keyChoice = .any) (hk : Held s k) :
    ∃ p, chooseKey { s with keyPick := p } = some k := by
  obtain ⟨p, hp, hget⟩ := List.getElem_of_mem (mem_heldKeys_iff_held.2 hk)
  refine ⟨p, (chooseKey_of_any (s := { s with keyPick := p }) hmode).trans ?_⟩
  change (heldKeys s)[p % (heldKeys s).length]? = some k
  rw [Nat.mod_eq_of_lt hp, List.getElem?_eq_getElem hp, hget]

theorem exec_ldVxK_of_none {x : Nibble} {s : State} (h : chooseKey s = none) :
    exec (.ldVxK x) s = .next { s with pc := s.pc - 2 } := by
  simp only [exec, execLdVxK, waitKeyEffect, h]

theorem exec_ldVxK_of_some {x k : Nibble} {s : State} (h : chooseKey s = some k) :
    exec (.ldVxK x) s = .next (writeV s x (k.setWidth 8)) := by
  simp only [exec, execLdVxK, waitKeyEffect, h]

theorem setsRegister_ldVxK {x k : Nibble} {s : State} (h : chooseKey s = some k) :
    SetsRegister (.ldVxK x) s x k.toNat :=
  setsRegister_of_exec (exec_ldVxK_of_some h) (BitVec.toNat_setWidth_of_le (by decide))

/-! Changes of the state that FX0A, 00EE and 2NNN do not see -/

section UnseenByKeysAndStack

variable {f : State → State} {s : State}

/-- A change that leaves the choice of the key alone goes through FX0A. -/
theorem Unseen.waitKeyEffect_map (hf : Unseen f) (hkey : chooseKey (f s) = chooseKey s) (x : Nibble) :
    waitKeyEffect x (f s) = f (waitKeyEffect x s) := by
  unfold waitKeyEffect
  rw [hkey]
  cases chooseKey s with
  | some k => exact hf.writeV_map s x _
  | none => exact (congrArg (fun pc => { f s with pc := pc - 2 }) (hf.pc_eq s)).trans (hf.set_pc s _)

variable (hstack : (f s).stack = s.stack)
  (hset : ∀ pc stack, { f s with pc := pc, stack := stack } = f { s with pc := pc, stack := stack })
include hstack hset

/-- A change that leaves the stack alone goes through a return. -/
theorem popPc_map : popPc (f s) = (popPc s).map f := by
  unfold popPc
  rw [hstack]
  cases s.stack.getLast? with
  | none => rfl
  | some a => exact congrArg Except.ok (hset a _)

/-- A change that leaves the stack alone goes through a call. -/
theorem Unseen.callEffect_map (hf : Unseen f) (nnn : Addr) : callEffect nnn (f s) = (callEffect nnn s).map f := by
  by_cases hfull : s.cfg.stackLimit = some s.stack.length
  · rw [callEffect_of_full nnn hfull, callEffect_of_full nnn (by rwa [hf.cfg_eq, hstack])]
    rfl
  · rw [callEffect_of_room nnn hfull, callEffect_of_room nnn (by rwa [hf.cfg_eq, hstack]), hf.pc_eq, hstack]
    exact congrArg Except.ok (hset _ _)

end UnseenByKeysAndStack

/-! The sound timer, which no instruction reads (R225) -/

/-- The state with another sound timer. -/
def withSt (b : Byte) (s : State) : State :=
  { s with st := b }

/-- Two outcomes alike but for the sound timer of their next states. -/
abbrev AgreeButSt : Host.Outcome State Fault Refusal → Host.Outcome State Fault Refusal → Prop :=
  OutcomesAgree fun t u => u = { t with st := u.st }

section WithSt

variable (b : Byte)

theorem withSt_unseen : Unseen (withSt b) := by
  constructor <;> intros <;> rfl

theorem popPc_withSt (s : State) : popPc (withSt b s) = (popPc s).map (withSt b) :=
  popPc_map rfl fun _ _ => rfl

theorem callEffect_withSt (nnn : Addr) (s : State) :
    callEffect nnn (withSt b s) = (callEffect nnn s).map (withSt b) :=
  (withSt_unseen b).callEffect_map rfl (fun _ _ => rfl) nnn

/-- Every instruction but FX18, which overwrites it, passes the sound timer on unread. -/
theorem exec_withSt {i : Instr} (hi : ∀ x, i ≠ .ldStVx x) (s : State) :
    exec i (withSt b s) = mapNext (withSt b) (exec i s) := by
  cases huses : usesStackTimersOrInput i with
  | false => exact (withSt_unseen b).exec_map huses s
  | true =>
    have checked (e : Except Cause State) :
        completeOrRaise i (withSt b s) (e.map (withSt b)) = mapNext (withSt b) (completeOrRaise i s e) :=
      completeOrRaise_map rfl i e
    cases i <;> simp [usesStackTimersOrInput] at huses
    case ldStVx x => exact absurd rfl (hi x)
    case ret => simp only [exec, execRet, popPc_withSt, checked]
    case call => simp only [exec, execCall, callEffect_withSt, checked]
    case skp | sknp => exact congrArg Host.Outcome.next ((withSt_unseen b).skipIf_map s _)
    case ldVxK x => exact congrArg Host.Outcome.next ((withSt_unseen b).waitKeyEffect_map rfl x)
    case ldVxDt | ldDtVx | rnd => rfl

theorem agreeButSt_mapNext (o : Host.Outcome State Fault Refusal) : AgreeButSt o (mapNext (withSt b) o) := by
  cases o <;> rfl

theorem exec_agreeButSt (i : Instr) (s : State) : AgreeButSt (exec i s) (exec i (withSt b s)) := by
  by_cases hi : ∃ x, i = .ldStVx x
  · obtain ⟨x, rfl⟩ := hi
    rfl
  · rw [exec_withSt b (not_exists.1 hi)]
    exact agreeButSt_mapNext b _

/-- The end of a step does not read the sound timer either (R252). -/
theorem finishStep_agreeButSt {o p : Host.Outcome State Fault Refusal} (h : AgreeButSt o p) :
    AgreeButSt (finishStep o) (finishStep p) := by
  cases o <;> cases p
  case next.next t u => exact congrArg endStep h
  case fault.fault | refused.refused => exact h
  all_goals cases h

/-- Two machines that differ in ST fetch the same instruction, run it alike and end the step alike. -/
theorem step_agreeButSt (s : State) : AgreeButSt (step s) (step (withSt b s)) := by
  have hfetch : fetchDecode (withSt b s) = fetchDecode s := rfl
  cases hfault : s.fault with
  | some r =>
    rw [step_of_fault hfault, step_of_fault (s := withSt b s) hfault]
    rfl
  | none =>
    cases hd : fetchDecode s with
    | error r =>
      rw [step_of_fetchDecode_error hfault hd, step_of_fetchDecode_error (s := withSt b s) hfault (hfetch.trans hd)]
      rfl
    | ok i =>
      rw [step_of_fetchDecode_ok hfault hd, step_of_fetchDecode_ok (s := withSt b s) hfault (hfetch.trans hd)]
      exact finishStep_agreeButSt (exec_agreeButSt b i (beginInstr s))

end WithSt

end Sys2Proof.Machine

end

section
/-! The settled statements of the keys and timers family. -/

namespace Sys2Proof.Proofs

open Sys2Proof Sys2Proof.Machine

/-- Settles O34, by the key chosen: none, the first of the sorted list of held keys, or the one at the draw's place. -/
theorem keyWaitTakesHeldKey : Obligations.KeyWaitTakesHeldKey := by
  refine fun x s => ⟨decodeWord_encode (.ldVxK x), fun hnone => ?_, fun hsome => ?_, fun hmode k hk => ?_⟩
  · exact ⟨_, exec_ldVxK_of_none (chooseKey_eq_none_iff_held.2 hnone), rfl, keepsAllBut_setPc s _⟩
  · have hchosen : chooseKey s ≠ none := by
      rwa [Ne, chooseKey_eq_none_iff_held, not_forall_not]
    obtain ⟨k, hk⟩ := Option.ne_none_iff_exists'.1 hchosen
    exact ⟨k, chooseKey_some hk, setsRegister_ldVxK hk, fun hmode j hj => chooseKey_le_held hmode hk hj⟩
  · obtain ⟨p, hp⟩ := exists_keyPick_of_held hmode hk
    exact ⟨p, setsRegister_ldVxK hp⟩

/-- Settles O40: FX18 overwrites ST, and every other part of a step passes it on unread. -/
theorem soundTimerIsWriteOnly : Obligations.SoundTimerIsWriteOnly :=
  ⟨fun x s => ⟨decodeWord_encode (.ldStVx x), _, rfl, rfl, keepsAllBut_setSt s _⟩,
    fun s b => step_agreeButSt b s⟩

/-- Settles O33: one writes a register and the other a timer. -/
theorem delayTimerReadsAndSets : Obligations.DelayTimerReadsAndSets :=
  fun x s => ⟨⟨decodeWord_encode (.ldVxDt x), setsRegister_of_exec rfl rfl⟩,
    decodeWord_encode (.ldDtVx x), _, rfl, rfl, keepsAllBut_setDt s _⟩

end Sys2Proof.Proofs

end

section
/-! SUPPORT. The exceptions family: the parts of the state each instruction may change, the redraw flag, the step's
arguments that an instruction does not see, the causes of a fault, and the step of a parked machine. -/

namespace Sys2Proof

open Machine

/-! The frame of every instruction (R15) -/

theorem KeepsAllBut.mono {fewer more : List Part} {s t : State} (h : KeepsAllBut fewer s t)
    (hsub : ∀ p ∈ fewer, p ∈ more) : KeepsAllBut more s t where
  registers hp := h.registers (mt (hsub _) hp)
  index hp := h.index (mt (hsub _) hp)
  counter hp := h.counter (mt (hsub _) hp)
  returns hp := h.returns (mt (hsub _) hp)
  delay hp := h.delay (mt (hsub _) hp)
  sound hp := h.sound (mt (hsub _) hp)
  bytes hp := h.bytes (mt (hsub _) hp)
  pixels hp := h.pixels (mt (hsub _) hp)
  flag hp := h.flag (mt (hsub _) hp)
  rest := h.rest

/-- The parts of the state an instruction may change. -/
def changedParts : Instr → List Part
  | .cls => [.disp, .redraw]
  | .drw _ _ _ => [.v, .disp, .redraw]
  | .ret | .call _ => [.pc, .stack]
  | .jp _ | .jpV0 _ | .seImm _ _ | .sneImm _ _ | .seReg _ _ | .sneReg _ _ | .skp _ | .sknp _ => [.pc]
  | .ldVxK _ => [.v, .pc]
  | .ldI _ | .ldFVx _ => [.i]
  | .addIVx _ => [.i, .v]
  | .ldBVx _ => [.mem]
  | .ldMemVx _ => [.mem, .i]
  | .ldVxMem _ => [.v, .i]
  | .ldDtVx _ => [.dt]
  | .ldStVx _ => [.st]
  | .ldImm _ _ | .addImm _ _ | .ldReg _ _ | .or _ _ | .and _ _ | .xor _ _ | .addReg _ _ | .sub _ _ | .shr _ _
  | .subn _ _ | .shl _ _ | .rnd _ _ | .ldVxDt _ => [.v]

theorem keepsAllBut_waitKeyEffect (s : State) (x : Nibble) : KeepsAllBut [.v, .pc] s (waitKeyEffect x s) := by
  unfold waitKeyEffect
  split
  · exact (keepsAllBut_setV s _).mono (by decide)
  · exact (keepsAllBut_setPc s _).mono (by decide)

/-- A completed instruction keeps every part of the state but its own (R15). -/
theorem exec_keepsAllBut {i : Instr} {s t : State} (h : exec i s = .next t) :
    KeepsAllBut (changedParts i) s t := by
  cases i <;> simp only [exec] at h
  case drw => obtain ⟨rows, -, rfl⟩ := execDrw_next h; exact keepsAllBut_drawSprite s _ _ rows
  case ret =>
    obtain ⟨a, rest, -, rfl⟩ := popPc_ok (completeOrRaise_next.1 h)
    exact keepsAllBut_setPcAndStack s a rest
  case call => obtain ⟨-, rfl⟩ := callEffect_ok (completeOrRaise_next.1 h); exact keepsAllBut_setPcAndStack s _ _
  case ldBVx => rw [execLdBVx_next h]; exact keepsAllBut_writeBytes s _ _
  case ldMemVx =>
    rw [execLdMemVx_next h]
    exact (keepsAllBut_writeBytes s _ _).trans (keepsAllBut_advanceI _ _)
  case ldVxMem =>
    obtain ⟨bs, -, rfl⟩ := execLdVxMem_next h
    exact (keepsAllBut_writeRegsFromV0 s bs).trans (keepsAllBut_advanceI _ _)
  all_goals injection h with h; subst h
  case cls => exact keepsAllBut_showDisp s _
  case addIVx x => exact keepsAllBut_addIndexEffect s x
  case ldVxK x => exact keepsAllBut_waitKeyEffect s x
  case ldDtVx => exact keepsAllBut_setDt s _
  case ldStVx => exact keepsAllBut_setSt s _
  case ldI | ldFVx => exact keepsAllBut_setI s _
  case jp | jpV0 => exact keepsAllBut_setPc s _
  case seImm | sneImm | seReg | sneReg | skp | sknp => exact keepsAllBut_skipIf s _
  case ldImm | addImm | ldReg | or | and | xor | addReg | sub | shr | subn | shl | rnd | ldVxDt =>
    exact keepsAllBut_setV s _

theorem redraw_notMem_changedParts {i : Instr} (hi : isDisplayInstr i = false) : Part.redraw ∉ changedParts i := by
  cases i
  case cls | drw => cases hi
  all_goals simp [changedParts]

theorem st_notMem_changedParts {i : Instr} (hi : ∀ x, i ≠ .ldStVx x) : Part.st ∉ changedParts i := by
  cases i
  case ldStVx x => exact absurd rfl (hi x)
  all_goals simp [changedParts]

end Sys2Proof

namespace Sys2Proof.Machine

/-! The redraw flag (R259, D18) -/

theorem exec_redraw {i : Instr} {s t : State} (hi : isDisplayInstr i = false) (h : exec i s = .next t) :
    t.redraw = s.redraw :=
  (exec_keepsAllBut h).flag (redraw_notMem_changedParts hi)

/-- A display instruction sets the flag as `showDisp` does for the frame buffer it leaves. -/
theorem exec_redraw_of_display {i : Instr} {s t : State} (hi : isDisplayInstr i = true) (h : exec i s = .next t) :
    t.redraw = (showDisp s t.disp).redraw := by
  cases i
  case cls => injection h with h; rw [← h]; rfl
  case drw => obtain ⟨rows, -, rfl⟩ := execDrw_next h; rfl
  all_goals cases hi

/-- In either mode a frame buffer that differs sets the flag. -/
theorem showDisp_redraw_of_ne {s : State} {d : Disp} (h : d ≠ s.disp) : (showDisp s d).redraw = true := by
  cases hmode : s.cfg.redrawMode with
  | byOpcode => exact showDisp_redraw_of_byOpcode d hmode
  | byChange => exact (showDisp_redraw_of_byChange d hmode).2 h

/-! The step's arguments (R254, R256) -/

/-- The state with its step's arguments mapped. -/
def mapInput (g : StepInput → StepInput) (s : State) : State :=
  { s with input := g s.input }

theorem mapInput_unseen (g : StepInput → StepInput) : Unseen (mapInput g) := by
  constructor <;> intros <;> rfl

/-- A change of the step's arguments that keeps the held keys for a key instruction, and the random byte for CXNN, goes
through the instruction. -/
theorem exec_mapInput {g : StepInput → StepInput} {i : Instr} {s : State}
    (hheld : isKeyInstr i = true → (g s.input).held = s.input.held)
    (hrnd : ∀ x nn, i = .rnd x nn → (g s.input).rnd = s.input.rnd) :
    exec i (mapInput g s) = mapNext (mapInput g) (exec i s) := by
  have hunseen := mapInput_unseen g
  cases huses : usesStackTimersOrInput i with
  | false => exact hunseen.exec_map huses s
  | true =>
    have checked (e : Except Cause State) :
        completeOrRaise i (mapInput g s) (e.map (mapInput g)) = mapNext (mapInput g) (completeOrRaise i s e) :=
      completeOrRaise_map rfl i e
    have hkey (hi : isKeyInstr i = true) : keyHeld (mapInput g s) = keyHeld s := by
      funext k
      simp only [keyHeld, mapInput, hheld hi]
    cases i <;> simp [usesStackTimersOrInput] at huses
    case ret => simp only [exec, execRet, popPc_map (f := mapInput g) (s := s) rfl (fun _ _ => rfl), checked]
    case call => simp only [exec, execCall, hunseen.callEffect_map (s := s) rfl (fun _ _ => rfl), checked]
    case rnd x nn => simp only [exec, execRnd, mapInput, hrnd x nn rfl, mapNext, writeV]
    case skp | sknp =>
      simp only [exec, execSkp, execSknp, hunseen.readV_eq, hkey rfl, hunseen.skipIf_map, mapNext]
    case ldVxK x =>
      have hchoice : chooseKey (mapInput g s) = chooseKey s := by
        simp only [chooseKey, heldKeys, hkey rfl]
        rfl
      exact congrArg Host.Outcome.next (hunseen.waitKeyEffect_map hchoice x)
    case ldVxDt | ldDtVx | ldStVx => rfl

theorem outcomesAgree_mapNext (f : State → State) (o : Host.Outcome State Fault Refusal) :
    OutcomesAgree (fun t u => u = f t) o (mapNext f o) := by
  cases o <;> rfl

/-! No refusals (R249) -/

theorem exec_ne_refused (i : Instr) (s : State) (q : Refusal) : exec i s ≠ .refused q := by
  cases i
  case ret | call | drw | ldBVx | ldMemVx | ldVxMem => exact completeOrRaise_not_refused
  all_goals rintro ⟨⟩

theorem step_ne_refused (s : State) (q : Refusal) : step s ≠ .refused q := by
  obtain hrun | ⟨r, hr⟩ := Option.eq_none_or_eq_some s.fault
  · cases hd : fetchDecode s with
    | error r => rw [step_of_fetchDecode_error hrun hd]; rintro ⟨⟩
    | ok i =>
      rw [step_of_fetchDecode_ok hrun hd]
      cases hexec : exec i (beginInstr s) with
      | next u => rintro ⟨⟩
      | fault r => rintro ⟨⟩
      | refused p => exact absurd hexec (exec_ne_refused i _ p)
  · rw [step_of_fault hr]; rintro ⟨⟩

/-! The causes of a fault (R241, R246) -/

/-- The condition under which an instruction begun in s may raise a cause. -/
def CauseHolds (i : Instr) (s : State) : Cause → Prop
  | .memOutOfRange d => d > 0xFFF ∧
      ((∃ x y n, i = .drw x y n) ∨ ∃ x, i = .ldBVx x ∨ i = .ldMemVx x ∨ i = .ldVxMem x)
  | .fontWrite d => d ≤ 0x04F ∧ s.cfg.fontProtect = .fault ∧ ∃ x, i = .ldBVx x ∨ i = .ldMemVx x
  | .stackUnderflow => i = .ret ∧ s.stack = []
  | .stackOverflow => s.cfg.stackLimit = some s.stack.length ∧ ∃ nnn, i = .call nnn

theorem loadBytes_error_cause {s : State} {a n : Nat} {c : Cause} (h : loadBytes s a n = .error c) :
    ∃ d > 0xFFF, c = .memOutOfRange d := by
  by_cases hrange : a + n ≤ 4096 ∨ n = 0
  · rw [loadBytes_ok hrange] at h
    cases h
  · rw [loadBytes_error (by omega) (by omega)] at h
    injection h with h
    exact ⟨max a 4096, by omega, h.symm⟩

theorem storeBytes_error_cause {s : State} {a : Nat} {bs : List Byte} {c : Cause}
    (h : storeBytes s a bs = .error c) :
    (∃ d > 0xFFF, c = .memOutOfRange d) ∨ ∃ d ≤ 0x04F, s.cfg.fontProtect = .fault ∧ c = .fontWrite d := by
  have hbs : bs ≠ [] := by rintro rfl; cases h
  by_cases hfont : s.cfg.fontProtect = .fault ∧ a < 80
  · rw [storeBytes_fontWrite hbs hfont.2 hfont.1] at h
    injection h with h
    exact .inr ⟨a, by omega, hfont.1, h.symm⟩
  · have hfree (hp : s.cfg.fontProtect = .fault) : 80 ≤ a := not_lt.1 fun ha => hfont ⟨hp, ha⟩
    by_cases hrange : a + bs.length ≤ 4096
    · rw [storeBytes_succeeds hrange hfree] at h
      cases h
    · rw [storeBytes_outOfRange hbs (not_le.1 hrange) hfree] at h
      injection h with h
      exact .inl ⟨max a 4096, by omega, h.symm⟩

/-- The failed store of FX33 or FX55 is a cause that may be raised. -/
theorem storeBytes_error_causeHolds {i : Instr} {x : Nibble} {s : State} {a : Nat} {bs : List Byte} {c : Cause}
    (hi : i = .ldBVx x ∨ i = .ldMemVx x) (h : storeBytes s a bs = .error c) : CauseHolds i s c := by
  obtain ⟨d, hd, rfl⟩ | ⟨d, hd, hp, rfl⟩ := storeBytes_error_cause h
  · exact ⟨hd, .inr ⟨x, hi.imp_right .inl⟩⟩
  · exact ⟨hd, hp, x, hi⟩

theorem storeRegsEffect_error {x : Nibble} {s : State} {c : Cause} (h : storeRegsEffect x s = .error c) :
    storeBytes s (dataBase s) (regsUpTo s x) = .error c := by
  unfold storeRegsEffect at h
  split at h
  · next d hd => injection h with h; rw [hd, h]
  · cases h

theorem loadRegsEffect_error {x : Nibble} {s : State} {c : Cause} (h : loadRegsEffect x s = .error c) :
    loadBytes s (dataBase s) (x.toNat + 1) = .error c := by
  unfold loadRegsEffect at h
  split at h
  · next d hd => injection h with h; rw [hd, h]
  · cases h

theorem drawEffect_error {x y n : Nibble} {s : State} {c : Cause} (h : drawEffect x y n s = .error c) :
    loadBytes s (dataBase s) n.toNat = .error c := by
  unfold drawEffect at h
  split at h
  · next d hd => injection h with h; rw [hd, h]
  · cases h

theorem popPc_error {s : State} {c : Cause} (h : popPc s = .error c) : c = .stackUnderflow ∧ s.stack = [] := by
  obtain hnil | ⟨rest, a, hs⟩ := List.eq_nil_or_concat s.stack
  · rw [popPc_nil hnil] at h
    injection h with h
    exact ⟨h.symm, hnil⟩
  · rw [popPc_append (rest := rest) (a := a) (by simpa using hs)] at h
    cases h

theorem callEffect_error {nnn : Addr} {s : State} {c : Cause} (h : callEffect nnn s = .error c) :
    c = .stackOverflow ∧ s.cfg.stackLimit = some s.stack.length := by
  by_cases hfull : s.cfg.stackLimit = some s.stack.length
  · rw [callEffect_of_full nnn hfull] at h
    injection h with h
    exact ⟨h.symm, hfull⟩
  · rw [callEffect_of_room nnn hfull] at h
    cases h

/-- A checked instruction that faults leaves the record of its effect's cause. -/
theorem completeOrRaise_fault_cause {i : Instr} {s : State} {r : Fault} {e : Except Cause State}
    (hcause : ∀ c, e = .error c → CauseHolds i s c) (h : completeOrRaise i s e = .fault r) :
    ∃ c, r = faultRecord i s c ∧ CauseHolds i s c := by
  obtain ⟨c, he, hr⟩ := completeOrRaise_fault.1 h
  exact ⟨c, hr, hcause c he⟩

/-- An instruction that faults leaves the record of a cause whose condition holds (R243, R246). -/
theorem exec_fault {i : Instr} {s : State} {r : Fault} (h : exec i s = .fault r) :
    ∃ c, r = faultRecord i s c ∧ CauseHolds i s c := by
  cases i <;> simp only [exec] at h
  case ret =>
    refine completeOrRaise_fault_cause (fun c he => ?_) h
    obtain ⟨rfl, hempty⟩ := popPc_error he
    exact ⟨rfl, hempty⟩
  case call nnn =>
    refine completeOrRaise_fault_cause (fun c he => ?_) h
    obtain ⟨rfl, hfull⟩ := callEffect_error he
    exact ⟨hfull, nnn, rfl⟩
  case drw x y n =>
    refine completeOrRaise_fault_cause (fun c he => ?_) h
    obtain ⟨d, hd, rfl⟩ := loadBytes_error_cause (drawEffect_error he)
    exact ⟨hd, .inl ⟨x, y, n, rfl⟩⟩
  case ldVxMem x =>
    refine completeOrRaise_fault_cause (fun c he => ?_) h
    obtain ⟨d, hd, rfl⟩ := loadBytes_error_cause (loadRegsEffect_error he)
    exact ⟨hd, .inr ⟨x, .inr (.inr rfl)⟩⟩
  case ldBVx x =>
    exact completeOrRaise_fault_cause (fun c he => storeBytes_error_causeHolds (.inl rfl) he) h
  case ldMemVx x =>
    refine completeOrRaise_fault_cause (fun c he => ?_) h
    exact storeBytes_error_causeHolds (.inr rfl) (storeRegsEffect_error he)
  all_goals cases h

/-- The record made of a cause while an instruction executes names the address it was fetched from, and its word (R88,
R243). -/
theorem faultRecord_beginInstr (i : Instr) (s : State) (c : Cause) :
    (faultRecord i (beginInstr s) c).addr = s.pc ∧ (faultRecord i (beginInstr s) c).word = some (encode i) := by
  have hpc : s.pc + 2 - 2 = s.pc := BitVec.add_sub_cancel s.pc 2
  cases c <;> exact ⟨hpc, rfl⟩

/-- A running machine's fault names PC (R243). -/
theorem step_fault_addr {s : State} {r : Fault} (hrun : s.fault = none) (h : step s = .fault r) : r.addr = s.pc := by
  obtain hfault | ⟨-, herror | ⟨i, -, hexec⟩⟩ := step_fault h
  · rw [hrun] at hfault; cases hfault
  · obtain ⟨rfl, -⟩ | ⟨w, c, -, -, rfl⟩ := fetchDecode_error herror <;> rfl
  · obtain ⟨c, rfl, -⟩ := exec_fault hexec
    exact (faultRecord_beginInstr i s c).1

/-! The parked machine (R263) -/

theorem decodeWord_of_fieldO_one {w : Word} (h : fieldO w = 0x1#4) : decodeWord w = .ok (.jp (fieldNNN w)) := by
  simp only [decodeWord, h]

/-- The word 0x1000 + p is the jump to p. -/
theorem decodeWord_of_toNat_jump {w : Word} {p : Nat} (hp : p < 4096) (hw : w.toNat = 0x1000 + p) :
    ∃ nnn, decodeWord w = .ok (.jp nnn) ∧ nnn.toNat = p := by
  have ho : fieldO w = 0x1#4 := by
    apply BitVec.eq_of_toNat_eq
    rw [fieldO, BitVec.extractLsb'_toNat, hw, Nat.shiftRight_eq_div_pow]
    change (0x1000 + p) / 2 ^ 12 % 2 ^ 4 = 1
    omega
  refine ⟨_, decodeWord_of_fieldO_one ho, ?_⟩
  rw [fieldNNN, BitVec.extractLsb'_toNat, hw, Nat.shiftRight_zero]
  omega

/-- A parked machine runs the jump to its own address, which changes nothing but the redraw flag. -/
theorem step_parked {p : Nat} {s : State} (h : ParkedAt p s) :
    step s = .next (endStep { s with redraw := false }) := by
  obtain ⟨hrun, hp, hpc, hhigh, hlow⟩ := h
  have hpcNat : s.pc.toNat = p := by rw [hpc, BitVec.toNat_ofNat]; omega
  have hfetch := fetch_of_le (s := s) (by omega)
  rw [hpcNat] at hfetch
  have hword : (wordOfBytes (readByte s p) (readByte s (p + 1))).toNat = 0x1000 + p := by
    rw [wordOfBytes_toNat, hhigh, hlow]
    omega
  obtain ⟨nnn, hdecode, hnnn⟩ := decodeWord_of_toNat_jump (by omega) hword
  have htarget : absolute nnn = s.pc := by
    apply BitVec.eq_of_toNat_eq
    rw [absolute_toNat, hnnn, hpcNat]
  have hexec : exec (.jp nnn) (beginInstr s) = .next { s with redraw := false } :=
    congrArg (fun pc => Host.Outcome.next ({ beginInstr s with pc := pc } : State)) htarget
  rw [step_of_fetchDecode_ok hrun (fetchDecode_of_decodeWord_ok hfetch hdecode), hexec]
  rfl

/-! The host's calls (R258) -/

theorem load_of_hostLoad {box : Option State} {cfg : Config} {p : List Byte} {t0 : Rat} {t : State}
    (h : (hostLoad box cfg p t0).1 = some t) : load cfg p t0 = .ok t := by
  unfold hostLoad at h
  split at h
  · next s hs => injection h with h; rw [hs, h]
  · cases h

section StepCall

variable {s : State} {inp : StepInput}

theorem hostStep_of_faulted {r : Fault} (h : s.fault = some r) : hostStep (some s) inp = (some s, .fault r) := by
  simp only [hostStep, stepMachine, h]

variable (hrun : s.fault = none)
include hrun

theorem hostStep_of_clockBack (h : inp.now < s.clock) :
    hostStep (some s) inp = (some s, .refused .clockWentBack) := by
  simp only [hostStep, stepMachine, hrun, if_pos h]

variable (hclock : s.clock ≤ inp.now)
include hclock

theorem hostStep_of_next {t : State} (h : step { s with input := inp } = .next t) :
    hostStep (some s) inp = (some t, .ok t.redraw) := by
  simp only [hostStep, stepMachine, if_neg hclock.not_gt, h]
  simp only [hrun]

theorem hostStep_of_fault {r : Fault} (h : step { s with input := inp } = .fault r) :
    hostStep (some s) inp = (some (faulted s r), .fault r) := by
  simp only [hostStep, stepMachine, if_neg hclock.not_gt, h]
  simp only [hrun]

end StepCall

end Sys2Proof.Machine

end

section
/-! The settled statements of the exceptions family. -/

namespace Sys2Proof.Proofs

open Sys2Proof Sys2Proof.Machine

/-- Settles O32: the flag is false when the instruction begins, and only the display instructions set it. -/
theorem redrawFlagIsTruthful : Obligations.RedrawFlagIsTruthful := by
  intro s t i hstep hdecode
  obtain ⟨j, u, -, hj, hexec, rfl⟩ := step_next hstep
  obtain rfl : i = j := by rw [hdecode] at hj; injection hj
  simp only [endStep_disp, endStep_redraw]
  cases hi : isDisplayInstr i with
  | false =>
    have hdisp : u.disp = s.disp := exec_disp (s := beginInstr s) hi hexec
    have hflag : u.redraw = false := exec_redraw (s := beginInstr s) hi hexec
    simp [hdisp, hflag]
  | true =>
    have hflag := exec_redraw_of_display hi hexec
    rw [hflag]
    exact ⟨showDisp_redraw_of_ne, fun h => (by cases h), showDisp_redraw_of_byOpcode _,
      showDisp_redraw_of_byChange _⟩

/-- Settles O35: the reconciliation in R8's default TIME is the loop, and it is what ends a completed step. -/
theorem reconciliationIsTheTickLoop : Obligations.ReconciliationIsTheTickLoop := by
  refine ⟨fun now s h => ?_, fun now s h => ?_, fun s t h => ?_⟩
  · unfold reconcileTimers
    rw [reconcile_of_tick_lt TimeDomain.standard s.dt h]
    rfl
  · unfold reconcileTimers
    rw [reconcile_of_le_tick TimeDomain.standard s.dt (not_lt.1 h)]
  · obtain ⟨i, u, -, hdecode, hexec, rfl⟩ := step_next h
    obtain ⟨-, -, -, hinput, -⟩ := exec_own_fields hexec
    rw [beginInstr_input] at hinput
    rw [← hinput]
    exact ⟨i, u, hdecode, hexec, rfl, rfl⟩

/-- Settles O36: k is the number of ticks due. -/
theorem reconciliationCatchesUp : Obligations.ReconciliationCatchesUp := by
  intro now s
  refine ⟨ticksDue now s.lastTick, ?_, reconcileTimers_lastTick now s, ?_, fun j hj => ?_⟩
  · rw [reconcileTimers_dt, countDown_toNat]
    omega
  · rw [reconcileTimers_lastTick, ← sub_sub]
    exact ticksDue_le.1 le_rfl
  · rw [← sub_sub]
    exact not_le.1 (mt ticksDue_le.2 hj.not_ge)

/-- Settles O39: every other instruction keeps ST, and so do the reconciliation and the end of the step. -/
theorem soundTimerNeverCounts : Obligations.SoundTimerNeverCounts := by
  refine ⟨fun s t hstep hne => ?_, reconcileTimers_st, fun cfg p t0 s h => congrArg State.st (load_fields h)⟩
  obtain ⟨i, u, -, hdecode, hexec, rfl⟩ := step_next hstep
  by_cases hi : ∃ x, i = .ldStVx x
  · obtain ⟨x, rfl⟩ := hi
    injection hexec with hexec
    exact ⟨x, hdecode, congrArg State.st hexec.symm⟩
  · exact absurd ((exec_keepsAllBut hexec).sound (st_notMem_changedParts (not_exists.1 hi))) hne

/-- Settles O41: other held keys, or another random byte, go through the instruction. -/
theorem inputsReachOnlyTheirInstructions : Obligations.InputsReachOnlyTheirInstructions := by
  constructor
  · intro i s h hi
    have hmap : exec i { s with input := { s.input with held := h } } = _ :=
      exec_mapInput (g := fun inp => { inp with held := h }) (fun hkey => by rw [hi] at hkey; cases hkey)
        fun _ _ _ => rfl
    rw [hmap]
    exact outcomesAgree_mapNext _ _
  · intro i s b hi
    have hmap : exec i { s with input := { s.input with rnd := b } } = _ :=
      exec_mapInput (g := fun inp => { inp with rnd := b }) (fun _ => rfl) fun x nn hrnd => absurd hrnd (hi x nn)
    rw [hmap]
    exact outcomesAgree_mapNext _ _

/-- Settles O43: every arm of `exec` completes or raises a fault. -/
theorem nothingIsRefused : Obligations.NothingIsRefused :=
  fun i s q => ⟨exec_ne_refused i s q, step_ne_refused s q⟩

/-- Settles O44: the guard of the fetch, the decoder's refusal, or the cause an instruction raised. -/
theorem faultsAreThoseListed : Obligations.FaultsAreThoseListed := by
  intro s r hrun hstep
  have haddr := step_fault_addr hrun hstep
  obtain hfault | ⟨-, herror | ⟨i, hdecode, hexec⟩⟩ := step_fault hstep
  · rw [hrun] at hfault; cases hfault
  · obtain ⟨rfl, hguard⟩ | ⟨w, c, hfetch, hrefused, rfl⟩ := fetchDecode_error herror
    · exact ⟨rfl, hguard⟩
    · exact ⟨rfl, hfetch, by rw [decodeWord_error_iff.1 hrefused]; exact Option.some_ne_none c⟩
  · obtain ⟨w, hfetch, hword⟩ := fetchDecode_ok hdecode
    obtain rfl := encode_of_decodeWord hword
    have hdecodes {j : Instr} (hj : i = j) : decodeWord (encode i) = .ok j := hj ▸ hword
    obtain ⟨c, rfl, hcause⟩ := exec_fault hexec
    cases c with
    | memOutOfRange d =>
      obtain ⟨hd, hi⟩ := hcause
      exact ⟨haddr, hfetch, hd, hi.imp (fun ⟨x, y, n, hj⟩ => ⟨x, y, n, hdecodes hj⟩)
        fun ⟨x, hj⟩ => ⟨x, hj.imp hdecodes (Or.imp hdecodes hdecodes)⟩⟩
    | fontWrite d =>
      obtain ⟨hd, hp, x, hi⟩ := hcause
      exact ⟨haddr, hfetch, hd, hp, x, hi.imp hdecodes hdecodes⟩
    | stackUnderflow =>
      obtain ⟨rfl, hempty⟩ := hcause
      exact ⟨haddr, hfetch, rfl, hempty⟩
    | stackOverflow =>
      obtain ⟨hfull, nnn, hi⟩ := hcause
      exact ⟨haddr, hfetch, hfull, nnn, hdecodes hi⟩

/-- Settles O55: the jump changes nothing but the redraw flag, and the end of the step none of the parts listed. -/
theorem parkedStaysParked : Obligations.ParkedStaysParked := by
  intro p s h
  exact ⟨_, step_parked h, h, rfl, fun _ => rfl, rfl, rfl, rfl, rfl, fun _ => rfl, rfl⟩

/-- Settles O45: a set fault decides the step and the Step call, and a loaded machine has none set. -/
theorem faultedMachineTakesNoStep : Obligations.FaultedMachineTakesNoStep := by
  refine fun s r h => ⟨step_of_fault h, fun inp => hostStep_of_faulted h, fun p hparked => ?_,
    fun cfg p t0 t ht => congrArg State.fault (load_fields (load_of_hostLoad ht))⟩
  have hrun : s.fault = none := hparked.1
  rw [hrun] at h
  cases h

/-- Settles O46: the Step call keeps the state before the step, and the record names PC. -/
theorem faultDiscardsTheStep : Obligations.FaultDiscardsTheStep :=
  fun s inp _ hrun hclock h =>
    ⟨hostStep_of_fault hrun hclock h, step_fault_addr (s := { s with input := inp }) hrun h⟩

/-- Settles O47, by the branches of the Step call. -/
theorem stepCallRunsOneStep : Obligations.StepCallRunsOneStep := by
  refine ⟨fun s inp t hrun hclock h => ⟨hostStep_of_next hrun hclock h, ?_⟩,
    fun s inp hrun h => hostStep_of_clockBack hrun h, fun inp => rfl⟩
  obtain ⟨-, -, hnow, -⟩ := stepKeepsParameters _ _ h
  exact hnow

end Sys2Proof.Proofs

end

section
/-! SUPPORT. The reset and hazards family: what a load answers by the size of its program, and the Load call's answer. -/

namespace Sys2Proof.Machine

variable {cfg : Config} {p : List Byte} {t0 : Rat}

/-! The sizes of a program (R280, R281) -/

theorem load_of_empty (h : p.length = 0) : load cfg p t0 = .error .emptyProgram :=
  if_pos h

theorem load_of_tooLarge (h : 3584 < p.length) : load cfg p t0 = .error .programTooLarge := by
  have hne : p.length ≠ 0 := by omega
  rw [load, if_neg hne, if_pos h]

theorem load_of_fits (hne : 1 ≤ p.length) (hle : p.length ≤ 3584) : load cfg p t0 = .ok (loadedState cfg p t0) := by
  rw [load, if_neg (Nat.one_le_iff_ne_zero.1 hne), if_neg hle.not_gt]

/-- A program is empty, too large, or fits. -/
theorem load_size_cases (cfg : Config) (p : List Byte) (t0 : Rat) :
    (p.length = 0 ∧ load cfg p t0 = .error .emptyProgram) ∨
      (3584 < p.length ∧ load cfg p t0 = .error .programTooLarge) ∨
        (1 ≤ p.length ∧ p.length ≤ 3584) ∧ load cfg p t0 = .ok (loadedState cfg p t0) := by
  obtain hempty | hne := Nat.eq_zero_or_pos p.length
  · exact .inl ⟨hempty, load_of_empty hempty⟩
  · obtain hlarge | hle := lt_or_ge 3584 p.length
    · exact .inr (.inl ⟨hlarge, load_of_tooLarge hlarge⟩)
    · exact .inr (.inr ⟨⟨hne, hle⟩, load_of_fits hne hle⟩)

/-! The Load call (R258, R281) -/

theorem hostLoad_of_ok (box : Option State) {s : State} (h : load cfg p t0 = .ok s) :
    hostLoad box cfg p t0 = (some s, none) := by
  rw [hostLoad, h]

theorem hostLoad_of_error (box : Option State) {e : LoadError} (h : load cfg p t0 = .error e) :
    hostLoad box cfg p t0 = (none, some e) := by
  rw [hostLoad, h]

end Sys2Proof.Machine

end

section
/-! The settled statement of the reset and hazards family. -/

namespace Sys2Proof.Proofs

open Sys2Proof Sys2Proof.Machine

/-- Settles O48: each size class gives its answer, and the classes exclude one another. -/
theorem loadRejectsBySize : Obligations.LoadRejectsBySize := by
  intro cfg p t0 box
  refine ⟨⟨fun h => ?_, load_of_empty⟩, ⟨fun h => ?_, load_of_tooLarge⟩,
    ⟨fun ⟨s, h⟩ => ?_, fun ⟨hne, hle⟩ => ⟨_, load_of_fits hne hle⟩⟩,
    fun _ => hostLoad_of_error box, fun _ => hostLoad_of_ok box⟩
  · obtain ⟨hempty, -⟩ | ⟨-, hload⟩ | ⟨-, hload⟩ := load_size_cases cfg p t0
    · exact hempty
    · cases hload.symm.trans h
    · cases hload.symm.trans h
  · obtain ⟨-, hload⟩ | ⟨hlarge, -⟩ | ⟨-, hload⟩ := load_size_cases cfg p t0
    · cases hload.symm.trans h
    · exact hlarge
    · cases hload.symm.trans h
  · obtain ⟨-, hload⟩ | ⟨-, hload⟩ | ⟨hfits, -⟩ := load_size_cases cfg p t0
    · cases hload.symm.trans h
    · cases hload.symm.trans h
    · exact hfits

end Sys2Proof.Proofs

end
